-- ==== Sys2Proof/Word.lean ====
section
/-! DEFINITION. The widths of the machine (00_scope.md R5, R7, R8): a 4-bit value and an 8-bit Instruction Word.
Bit `i` of a vector has weight `2^i`; a single Signal is a `Bool`. -/

namespace Sys2Proof

/-- A 4-bit BitVector: registers, ALU operands and sum, opcode, immediate, ROM address (R5). -/
abbrev Nibble := BitVec 4

/-- An Instruction Word: 8 bits, opcode in bits 7 to 4, immediate in bits 3 to 0 (R5, R61). -/
abbrev Word := BitVec 8

end Sys2Proof
end

