-- ==== Sys2Proof/Config.lean ====
section
/-! DEFINITION. The constants of the machine (00_scope.md R5, R6). The spec leaves no result of an instruction open, so
there is no free value here (41_sequential_and_cycle.md R147, 93_implementation_defined.md part 1). -/

namespace Sys2Proof

/-- The ROM has exactly 16 rows (R5, R40). -/
def Config.romRows : Nat := 16

/-- A row that the program does not fill holds the all-zero word (20_memory.md R41, R47). -/
def Config.unusedRow : Word := 0

/-- Execution starts at ROM row 0, after reset and at power-on (70_reset_and_hazards.md R203). -/
def Config.entryPoint : Nibble := 0

end Sys2Proof
end

