-- ==== Sys2Proof/Machine/State.lean ====
section
/-! DEFINITION. The state of the machine: the five clocked elements of 10_state.md R20, the ROM, and the two fields that
hold what the host drives (the clock generator's mode and the pulses it has yet to issue; log entries 3 and 4). Fault,
Refusal and the state after reset. -/

namespace Sys2Proof.Machine

/-- One pulse of the clock generator, one tick of the machine (00_scope.md R12, 10_state.md R35). -/
structure Pulse where
  /-- `clock`: the engine acts only when it is 1 (41_sequential_and_cycle.md R137, R148). -/
  clock  : Bool
  /-- `reset_n`: active low, 0 resets (R136). -/
  resetN : Bool
  deriving DecidableEq, Repr

/-- The clock generator's three modes (R133). -/
inductive ClockMode where
  | hz1 | hz10 | manual
  deriving DecidableEq, Repr

/-- The ROM as rows (address, word), addresses strictly rising, no row listed that holds the unused-row word. -/
abbrev Memory := List Host.Cell

/-- The canonical form, for rows from address `lo` on. -/
def Memory.wfFrom (lo : Nat) : Memory → Bool
  | [] => true
  | (k, w) :: m =>
    decide (lo ≤ k) && decide (k < Config.romRows) && decide (w ≠ Config.unusedRow) && Memory.wfFrom (k + 1) m

/-- The canonical form of the ROM: rows strictly rising, each below row 16, none equal to what an unlisted row reads as. -/
def Memory.wf (m : Memory) : Bool := Memory.wfFrom 0 m

/-- There is no fault: the hardware raises no exception and its step function never has a fault outcome
(60_exceptions.md R180, R195). The type has no constructor, so none can be raised (log entry 14). -/
inductive Fault where
  deriving DecidableEq, Repr

/-- Why a step could be refused. No state of this machine is refused (R195). -/
inductive Refusal where
  /-- The instruction of this name has no meaning yet. Raised by an arm of `exec` only, and by none of them now. Safe:
  nothing is claimed of the instruction. -/
  | notModelled (mnemonic : String)
  deriving DecidableEq, Repr

/-- The state. `a`, `b`, `c`, `pc`, `cf` are the five elements of R20; `rom` is R28 and R41; `mode` and `pulses` are the
model's own fields for the clock generator and the host (R133, R136). -/
structure State where
  /-- Register A (R21). -/
  a : Nibble
  /-- Register B (R22). -/
  b : Nibble
  /-- Register C: the output port `OUT[3:0]` is its held value (R23). -/
  c : Nibble
  /-- The program counter (R37). -/
  pc : Nibble
  /-- The carry flag (R25). -/
  cf : Bool
  /-- The ROM: 16 rows of 8 bits, constant during a run (R28, R41). -/
  rom : Memory
  /-- The clock generator's mode (R133). -/
  mode : ClockMode
  /-- In manual mode, the pulses the host is still to issue, oldest first (R136). -/
  pulses : List Pulse
  deriving DecidableEq, Repr

/-- The machine after reset: all five elements zero (R32, R201), which is also the spec's power-on state (R34, log entry
5). No ROM row is listed (log entry 1); the generator runs by itself at 1 Hz, no pulse pending (log entry 4). -/
def State.reset : State where
  a := 0
  b := 0
  c := 0
  pc := Config.entryPoint
  cf := false
  rom := []
  mode := .hz1
  pulses := []

end Sys2Proof.Machine
end

