-- ==== Sys2Proof/Machine/Clock.lean ====
section
/-! DEFINITION. The clock generator (41_sequential_and_cycle.md R132 to R136): the pulse of the next tick, and the state
once that pulse has been taken. -/

namespace Sys2Proof.Machine

/-- The pulse the generator produces in the automatic modes: `clock = 1`, `reset_n = 1` (R134, R135). -/
def runPulse : Pulse := ⟨true, true⟩

/-- The next tick's pulse. In manual mode it is the one the host issues next, if it issues one (R133, R136). -/
def State.pulse (s : State) : Option Pulse :=
  match s.mode with
  | .hz1 | .hz10 => some runPulse
  | .manual => s.pulses.head?

/-- The state with that pulse taken from the host's list; nothing else of it changes. -/
def State.afterPulse (s : State) : State :=
  match s.mode with
  | .hz1 | .hz10 => s
  | .manual => { s with pulses := s.pulses.tail }

end Sys2Proof.Machine
end

