-- ==== Sys2Proof/Syntax.lean ====
section
/-! DEFINITION. The sixteen instructions, one constructor per row of spec/opcode_table.json, in the table's order
(30_encoding.md R64, R65, R66). Each carries the immediate field: the hardware adds it for every opcode (R63, R68).
The registers an instruction reads and writes are implied by its opcode (R63). -/

namespace Sys2Proof

inductive Instr where
  /-- `ADD A Im`, opcode 0000 (R150). -/
  | addAIm (im : Nibble)
  /-- `MOV A B`, opcode 0001 (R151). -/
  | movAB (im : Nibble)
  /-- `IN A`, opcode 0010 (R152). -/
  | inA (im : Nibble)
  /-- `MOV A Im`, opcode 0011 (R153). -/
  | movAIm (im : Nibble)
  /-- `MOV B A`, opcode 0100 (R154). -/
  | movBA (im : Nibble)
  /-- `ADD B Im`, opcode 0101 (R155). -/
  | addBIm (im : Nibble)
  /-- `IN B`, opcode 0110 (R156). -/
  | inB (im : Nibble)
  /-- `MOV B Im`, opcode 0111 (R157). -/
  | movBIm (im : Nibble)
  /-- `OUT_B_ALT Im`, opcode 1000 (R160); the name is the spec's own (R66). -/
  | outBAlt (im : Nibble)
  /-- `OUT B`, opcode 1001 (R161). -/
  | outB (im : Nibble)
  /-- `OUT_IM_ALT Im`, opcode 1010 (R162); the name is the spec's own (R66). -/
  | outImAlt (im : Nibble)
  /-- `OUT Im`, opcode 1011 (R163). -/
  | outIm (im : Nibble)
  /-- `JNC_B Im`, opcode 1100 (R170); the name is the spec's own (R66). -/
  | jncB (im : Nibble)
  /-- `JMP_B Im`, opcode 1101 (R171); the name is the spec's own (R66). -/
  | jmpB (im : Nibble)
  /-- `JNC Im`, opcode 1110 (R172). -/
  | jnc (im : Nibble)
  /-- `JMP Im`, opcode 1111 (R173). -/
  | jmp (im : Nibble)
  deriving DecidableEq, Repr

end Sys2Proof
end

