-- ==== Sys2Proof/WellFormed.lean ====
section
/-! DEFINITION. Which instructions are well formed. Every term of `Instr` is: no encoding is illegal or reserved
(30_encoding.md R67), and the one operand is a 4-bit value, so a value outside its range cannot be written
(60_exceptions.md R191). What can fail is the narrower question whether the ASSEMBLER has a line for the instruction
(R65, R66, R77); the hardware runs the others all the same. -/

namespace Sys2Proof

/-- Every instruction is one that the hardware executes (R67). -/
def Instr.wellFormed : Instr → Bool
  | .addAIm _ | .movAB _ | .inA _ | .movAIm _ => true
  | .movBA _ | .addBIm _ | .inB _ | .movBIm _ => true
  | .outBAlt _ | .outB _ | .outImAlt _ | .outIm _ => true
  | .jncB _ | .jmpB _ | .jnc _ | .jmp _ => true

/-- The instruction is one that a line of the assembler's operand table produces (R76): not one of the four names of
R66, and with `Im` = 0000 where the form has no immediate token (R77). -/
def Instr.assemblerForm : Instr → Bool
  | .addAIm _ | .movAIm _ | .addBIm _ | .movBIm _ | .outIm _ | .jnc _ | .jmp _ => true
  | .movAB im | .inA im | .movBA im | .inB im | .outB im => im == 0
  | .outBAlt _ | .outImAlt _ | .jncB _ | .jmpB _ => false

end Sys2Proof
end

