-- ==== Sys2Proof/Decode.lean ====
section
/-! DEFINITION. The instruction decoder as a map from words to instructions, and the encoder (30_encoding.md R60 to R68).
`decode` is total and rejects nothing: every one of the 256 words executes (R67), and an instruction is always one cell
(R70). The six control signals of the hardware decoder are in Machine/Datapath.lean. -/

namespace Sys2Proof

/-- Opcode bit `op<i>` of a word: `op0 = ir[4]`, …, `op3 = ir[7]` (R62). -/
def opBit (w : Word) (i : Nat) : Bool := w.getLsbD (4 + i)

/-- The opcode field `ir[7:4]` (R61). -/
def opcodeOf (w : Word) : Nibble := w.extractLsb' 4 4

/-- The immediate field `ir[3:0]` (R61, R63). -/
def immOf (w : Word) : Nibble := w.extractLsb' 0 4

/-- The opcode map of R64 with the names of R65 and R66, on `op3 op2 op1 op0`. -/
def decode (w : Word) : Instr :=
  match opBit w 3, opBit w 2, opBit w 1, opBit w 0 with
  | false, false, false, false => .addAIm (immOf w)
  | false, false, false, true  => .movAB (immOf w)
  | false, false, true,  false => .inA (immOf w)
  | false, false, true,  true  => .movAIm (immOf w)
  | false, true,  false, false => .movBA (immOf w)
  | false, true,  false, true  => .addBIm (immOf w)
  | false, true,  true,  false => .inB (immOf w)
  | false, true,  true,  true  => .movBIm (immOf w)
  | true,  false, false, false => .outBAlt (immOf w)
  | true,  false, false, true  => .outB (immOf w)
  | true,  false, true,  false => .outImAlt (immOf w)
  | true,  false, true,  true  => .outIm (immOf w)
  | true,  true,  false, false => .jncB (immOf w)
  | true,  true,  false, true  => .jmpB (immOf w)
  | true,  true,  true,  false => .jnc (immOf w)
  | true,  true,  true,  true  => .jmp (immOf w)

/-- The opcode value of an instruction, MSB-first as R64 writes it. -/
def Instr.opcode : Instr → Nibble
  | .addAIm _   => 0b0000
  | .movAB _    => 0b0001
  | .inA _      => 0b0010
  | .movAIm _   => 0b0011
  | .movBA _    => 0b0100
  | .addBIm _   => 0b0101
  | .inB _      => 0b0110
  | .movBIm _   => 0b0111
  | .outBAlt _  => 0b1000
  | .outB _     => 0b1001
  | .outImAlt _ => 0b1010
  | .outIm _    => 0b1011
  | .jncB _     => 0b1100
  | .jmpB _     => 0b1101
  | .jnc _      => 0b1110
  | .jmp _      => 0b1111

/-- The immediate of an instruction. -/
def Instr.im : Instr → Nibble
  | .addAIm im | .movAB im | .inA im | .movAIm im => im
  | .movBA im | .addBIm im | .inB im | .movBIm im => im
  | .outBAlt im | .outB im | .outImAlt im | .outIm im => im
  | .jncB im | .jmpB im | .jnc im | .jmp im => im

/-- A word from its two fields: `16*val(op) + val(Im)` (R61). -/
def wordOf (op im : Nibble) : Word := op ++ im

/-- The word of an instruction (R61, R64). -/
def encode (i : Instr) : Word := wordOf i.opcode i.im

/-- The instruction read from an instruction whose bits are `w`, numbered as spec/opcode_table.json numbers them: the
table's one word is the one ROM cell, bit 0 least significant (R44, R61); bits from `nbits` on are 0. -/
def decodeTableWord (nbits w : Nat) : Option Instr :=
  some (decode (BitVec.ofNat 8 (w % 2 ^ nbits)))

end Sys2Proof
end

