-- ==== Sys2Proof/Machine/Gates.lean ====
section
/-! DEFINITION. The gate library, the adders and the 4-bit ripple-carry ALU (40_combinational_blocks.md R90 to R99). The
ALU is the machine's only arithmetic unit; the meanings of the instructions compute through it. -/

namespace Sys2Proof.Machine

/-- `NOT` (R90). -/
def gNot : Bool → Bool
  | false => true
  | true => false

/-- Two-input `AND` (R90). -/
def gAnd : Bool → Bool → Bool
  | true, true => true
  | false, false | false, true | true, false => false

/-- Two-input `OR` (R90). -/
def gOr : Bool → Bool → Bool
  | false, false => false
  | false, true | true, false | true, true => true

/-- Two-input `XOR`, derived: `OR(AND(a, NOT b), AND(NOT a, b))` (R91). -/
def gXor (a b : Bool) : Bool := gOr (gAnd a (gNot b)) (gAnd (gNot a) b)

/-- `AND` of two or more inputs, a left fold (R92). -/
def gAndN (x y : Bool) (zs : List Bool) : Bool := zs.foldl gAnd (gAnd x y)

/-- `OR` of two or more inputs, a left fold (R92). -/
def gOrN (x y : Bool) (zs : List Bool) : Bool := zs.foldl gOr (gOr x y)

/-- `XOR` of two or more inputs, a left fold (R92). -/
def gXorN (x y : Bool) (zs : List Bool) : Bool := zs.foldl gXor (gXor x y)

/-- `NAND` of two or more inputs (R91, R92). -/
def gNandN (x y : Bool) (zs : List Bool) : Bool := gNot (gAndN x y zs)

/-- `NOR` of two or more inputs (R91, R92). -/
def gNorN (x y : Bool) (zs : List Bool) : Bool := gNot (gOrN x y zs)

/-- An adder cell's outputs (R93, R94). -/
structure CarrySum where
  carry : Bool
  sum   : Bool
  deriving DecidableEq, Repr

/-- Half-adder (R93). -/
def halfAdder (a b : Bool) : CarrySum := ⟨gAnd a b, gXor a b⟩

/-- Full-adder: two half-adders and an OR of their carries (R94). -/
def fullAdder (cin a b : Bool) : CarrySum :=
  let h1 := halfAdder a b
  let h2 := halfAdder h1.sum cin
  ⟨gOr h1.carry h2.carry, h2.sum⟩

/-- The ALU's two named outputs (R96). -/
structure AluOut where
  /-- The final carry-out. -/
  cout : Bool
  /-- The 4-bit sum. -/
  sum  : Nibble
  deriving DecidableEq, Repr

/-- A 4-bit vector from its bits, bit 0 first (R8). -/
def nibbleOfBits (b0 b1 b2 b3 : Bool) : Nibble :=
  BitVec.ofBool b3 ++ BitVec.ofBool b2 ++ BitVec.ofBool b1 ++ BitVec.ofBool b0

/-- The 4-bit ALU: a full-adder at each position, LSB first, threading the carry (R95). It is `ADD4(cin, a, b)` of R11. -/
def alu (cin : Bool) (a b : Nibble) : AluOut :=
  let f0 := fullAdder cin (a.getLsbD 0) (b.getLsbD 0)
  let f1 := fullAdder f0.carry (a.getLsbD 1) (b.getLsbD 1)
  let f2 := fullAdder f1.carry (a.getLsbD 2) (b.getLsbD 2)
  let f3 := fullAdder f2.carry (a.getLsbD 3) (b.getLsbD 3)
  ⟨f3.carry, nibbleOfBits f0.sum f1.sum f2.sum f3.sum⟩

/-- The source's 5-position layout of the ALU output: position 0 the carry-out, positions 1 to 4 the sum, LSB first (R96).
No rule computes with it. -/
def AluOut.positions (r : AluOut) : List Bool :=
  [r.cout, r.sum.getLsbD 0, r.sum.getLsbD 1, r.sum.getLsbD 2, r.sum.getLsbD 3]

end Sys2Proof.Machine
end

