-- ==== Sys2Proof/Machine/Elements.lean ====
section
/-! DEFINITION. The transition of each clocked element on an asserted tick (41_sequential_and_cycle.md R120 to R126): the
active-low load-enable `loadN`, the active-low reset `resetN`, the candidate next value `d` and the stored value `q`.
Each decides load, count or hold first; reset is applied after that and wins (R124). -/

namespace Sys2Proof.Machine

/-- Register, for A, B and C (R121). -/
def registerNext (loadN resetN : Bool) (d q : Nibble) : Nibble :=
  let chosen := if loadN = false then d else q
  if resetN = false then 0 else chosen

/-- The counter's incrementer: its own ALU with `1000` read LSB-first (the value 1) and carry-in 0; the carry-out is
dropped (R123). -/
def inc (q : Nibble) : Nibble := (alu false q 0b0001).sum

/-- Counter, for PC: it loads or counts and never holds (R122; log entry 7). -/
def counterNext (loadN resetN : Bool) (d q : Nibble) : Nibble :=
  let chosen := if loadN = false then d else inc q
  if resetN = false then 0 else chosen

/-- The 1-bit store (R120, R125). -/
def flipFlopNext (loadN resetN : Bool) (d q : Bool) : Bool :=
  let chosen := if loadN = false then d else q
  if resetN = false then false else chosen

/-- The carry flip-flop's load-enable is tied to 0, permanently active (R125; log entry 7). -/
def carryLoadN : Bool := false

end Sys2Proof.Machine
end

