-- ==== Sys2Proof/Machine/Ops.lean ====
section
/-! DEFINITION. The named operations over the ROM and the elements: reading and loading rows, the fetch, the commit that
ends every instruction, and the reset of the five elements. The machine takes no exception and returns from none
(60_exceptions.md R180 to R186), so there is no operation for either. -/

namespace Sys2Proof.Machine

/-- The word in a row; a row that is not listed holds the unused-row word (20_memory.md R41, R42). -/
def Memory.read : Memory → Nat → Word
  | [], _ => Config.unusedRow
  | (k, w) :: m, i => if k = i then w else Memory.read m i

/-- Put a word in row `k`, keeping the canonical form. -/
def Memory.writeAt (k : Nat) (w : Word) : Memory → Memory
  | [] => if w = Config.unusedRow then [] else [(k, w)]
  | (k', w') :: m =>
    if k < k' then (if w = Config.unusedRow then (k', w') :: m else (k, w) :: (k', w') :: m)
    else if k = k' then (if w = Config.unusedRow then m else (k, w) :: m)
    else (k', w') :: Memory.writeAt k w m

/-- The host's load of one row, before the run; no instruction writes a row (R43, R52). -/
def Memory.write (m : Memory) (row : Nibble) (w : Word) : Memory := Memory.writeAt row.toNat w m

/-- Rows `k`, `k + 1`, … from a list of words, in the canonical form. -/
def Memory.ofRowsFrom : Nat → List Word → Memory
  | _, [] => []
  | k, w :: ws => if w = Config.unusedRow then Memory.ofRowsFrom (k + 1) ws else (k, w) :: Memory.ofRowsFrom (k + 1) ws

/-- The ROM from a 16-row image, row 0 first (30_encoding.md R80, R81). -/
def Memory.ofRows (rows : List Word) : Memory := Memory.ofRowsFrom 0 (rows.take Config.romRows)

/-- The fetch of step 2: `ir = ROM[val(PC)]` at the sampled PC (R54; 41_sequential_and_cycle.md R139). -/
def State.fetch (s : State) : Word := s.rom.read s.pc.toNat

/-- Which element takes the sum on a tick: the one whose load-enable is 0, or none
(40_combinational_blocks.md R107, R111). -/
inductive Dest where
  | a | b | c | pc | none
  deriving DecidableEq, Repr

/-- Step 6 with reset inactive: all five elements advance together from the same sample, the one that `dst` names taking
the sum, the others holding, the counter counting unless it loads, the flag taking the carry-out
(41_sequential_and_cycle.md R143, R144). -/
def State.commit (dst : Dest) (r : AluOut) (s : State) : State :=
  { s with
    a  := registerNext (dst != .a) true r.sum s.a
    b  := registerNext (dst != .b) true r.sum s.b
    c  := registerNext (dst != .c) true r.sum s.c
    pc := counterNext (dst != .pc) true r.sum s.pc
    cf := flipFlopNext carryLoadN true r.cout s.cf }

/-- What an asserted tick with `reset_n = 0` leaves: the five elements all-zero; the ROM keeps its contents
(70_reset_and_hazards.md R201). -/
def State.clear (s : State) : State :=
  { s with a := 0, b := 0, c := 0, pc := 0, cf := false }

/-- The output port `OUT[3:0]`: register C's held value (10_state.md R23). -/
def State.out (s : State) : Nibble := s.c

end Sys2Proof.Machine
end

