-- ==== Sys2Proof/Machine/Operands.lean ====
section
/-! DEFINITION. The first operand of the main ALU: one of the four inputs of the multiplexer
(40_combinational_blocks.md R105). The second operand is always the immediate, all four bits, unextended
(30_encoding.md R63). -/

namespace Sys2Proof.Machine

/-- The multiplexer's inputs `c0` to `c3`. -/
inductive Operand where
  | regA | regB | inputPort | zero
  deriving DecidableEq, Repr

/-- The input port has no pins: it reads 0000 on every tick (10_state.md R33). -/
def inputPort : Nibble := 0

/-- The multiplexer's fourth input, a fixed-zero constant (R33, R105). -/
def constantZero : Nibble := 0

/-- The operand's sampled value (R105). -/
def State.operand (s : State) : Operand → Nibble
  | .regA => s.a
  | .regB => s.b
  | .inputPort => inputPort
  | .zero => constantZero

end Sys2Proof.Machine
end

