-- ==== Sys2Proof/Machine/Flags.lean ====
section
/-! DEFINITION. The carry flag's computation: the main ALU adds the carry flag, the selected operand and the immediate on
every tick, and its carry-out is the flag's next value (10_state.md R25; 41_sequential_and_cycle.md R142). The condition
of the conditional jumps. -/

namespace Sys2Proof.Machine

/-- Step 5: `(cout, sum) = ADD4(CF, sel, Im)`; the carry-in is the sampled carry flag (R142; log entry 6). -/
def State.mainAlu (s : State) (o : Operand) (im : Nibble) : AluOut := alu s.cf (s.operand o) im

/-- A conditional jump loads PC when `CF = 0` and nothing when `CF = 1` (40_combinational_blocks.md R109,
44_jumps.md R174). -/
def State.jumpIfNoCarry (s : State) : Dest := if s.cf = false then .pc else .none

end Sys2Proof.Machine
end

