-- ==== Sys2Proof/Machine/Jump.lean ====
section
/-! DEFINITION. Control transfer, opcodes 1100 to 1111 (44_jumps.md R174, R175). A taken jump puts the sum in PC; the ALU
adds and CF takes the carry-out whether the jump is taken or not; A, B and C are unchanged. -/

namespace Sys2Proof.Machine

/-- `JNC_B Im` (R170). -/
def execJncB (im : Nibble) (s : State) : Host.Outcome State Fault Refusal :=
  .next (s.commit s.jumpIfNoCarry (s.mainAlu .regB im))

/-- `JMP_B Im` (R171). -/
def execJmpB (im : Nibble) (s : State) : Host.Outcome State Fault Refusal :=
  .next (s.commit .pc (s.mainAlu .regB im))

/-- `JNC Im` (R172). -/
def execJnc (im : Nibble) (s : State) : Host.Outcome State Fault Refusal :=
  .next (s.commit s.jumpIfNoCarry (s.mainAlu .zero im))

/-- `JMP Im` (R173). -/
def execJmp (im : Nibble) (s : State) : Host.Outcome State Fault Refusal :=
  .next (s.commit .pc (s.mainAlu .zero im))

end Sys2Proof.Machine
end

