-- ==== Sys2Proof/Machine/MovAddIn.lean ====
section
/-! DEFINITION. The instructions that write Register A or Register B, opcodes 0000 to 0111 (42_mov_add_in.md). Each adds
the carry flag, its source and its immediate, puts the sum in its register and the carry-out in CF, and counts PC up;
C is unchanged (R158). -/

namespace Sys2Proof.Machine

/-- `ADD A Im` (R150). -/
def execAddAIm (im : Nibble) (s : State) : Host.Outcome State Fault Refusal :=
  .next (s.commit .a (s.mainAlu .regA im))

/-- `MOV A B` (R151). -/
def execMovAB (im : Nibble) (s : State) : Host.Outcome State Fault Refusal :=
  .next (s.commit .a (s.mainAlu .regB im))

/-- `IN A` (R152). -/
def execInA (im : Nibble) (s : State) : Host.Outcome State Fault Refusal :=
  .next (s.commit .a (s.mainAlu .inputPort im))

/-- `MOV A Im` (R153). -/
def execMovAIm (im : Nibble) (s : State) : Host.Outcome State Fault Refusal :=
  .next (s.commit .a (s.mainAlu .zero im))

/-- `MOV B A` (R154). -/
def execMovBA (im : Nibble) (s : State) : Host.Outcome State Fault Refusal :=
  .next (s.commit .b (s.mainAlu .regA im))

/-- `ADD B Im` (R155). -/
def execAddBIm (im : Nibble) (s : State) : Host.Outcome State Fault Refusal :=
  .next (s.commit .b (s.mainAlu .regB im))

/-- `IN B` (R156). -/
def execInB (im : Nibble) (s : State) : Host.Outcome State Fault Refusal :=
  .next (s.commit .b (s.mainAlu .inputPort im))

/-- `MOV B Im` (R157). -/
def execMovBIm (im : Nibble) (s : State) : Host.Outcome State Fault Refusal :=
  .next (s.commit .b (s.mainAlu .zero im))

end Sys2Proof.Machine
end

