-- ==== Sys2Proof/Machine/Out.lean ====
section
/-! DEFINITION. The instructions that write the output register C, opcodes 1000 to 1011 (43_out.md R164). A and B are
unchanged and PC counts up; `op0` has no effect in this group. -/

namespace Sys2Proof.Machine

/-- `OUT_B_ALT Im` (R160). -/
def execOutBAlt (im : Nibble) (s : State) : Host.Outcome State Fault Refusal :=
  .next (s.commit .c (s.mainAlu .regB im))

/-- `OUT B` (R161). -/
def execOutB (im : Nibble) (s : State) : Host.Outcome State Fault Refusal :=
  .next (s.commit .c (s.mainAlu .regB im))

/-- `OUT_IM_ALT Im` (R162): the constant, not the input port. -/
def execOutImAlt (im : Nibble) (s : State) : Host.Outcome State Fault Refusal :=
  .next (s.commit .c (s.mainAlu .zero im))

/-- `OUT Im` (R163). -/
def execOutIm (im : Nibble) (s : State) : Host.Outcome State Fault Refusal :=
  .next (s.commit .c (s.mainAlu .zero im))

end Sys2Proof.Machine
end

