-- ==== Sys2Proof/Machine/Dispatch.lean ====
section
/-! DEFINITION. One arm per instruction: what an instruction does on an asserted tick with `reset_n = 1`. -/

namespace Sys2Proof.Machine

def exec (i : Instr) (s : State) : Host.Outcome State Fault Refusal :=
  match i with
  | .addAIm im => Sys2Proof.Machine.execAddAIm im s
  | .movAB im => Sys2Proof.Machine.execMovAB im s
  | .inA im => Sys2Proof.Machine.execInA im s
  | .movAIm im => Sys2Proof.Machine.execMovAIm im s
  | .movBA im => Sys2Proof.Machine.execMovBA im s
  | .addBIm im => Sys2Proof.Machine.execAddBIm im s
  | .inB im => Sys2Proof.Machine.execInB im s
  | .movBIm im => Sys2Proof.Machine.execMovBIm im s
  | .outBAlt im => Sys2Proof.Machine.execOutBAlt im s
  | .outB im => Sys2Proof.Machine.execOutB im s
  | .outImAlt im => Sys2Proof.Machine.execOutImAlt im s
  | .outIm im => Sys2Proof.Machine.execOutIm im s
  | .jncB im => Sys2Proof.Machine.execJncB im s
  | .jmpB im => Sys2Proof.Machine.execJmpB im s
  | .jnc im => Sys2Proof.Machine.execJnc im s
  | .jmp im => Sys2Proof.Machine.execJmp im s

end Sys2Proof.Machine
end

