-- ==== Sys2Proof/Machine/Tick.lean ====
section
/-! DEFINITION. What one tick does (41_sequential_and_cycle.md R137, R147, R148). -/

namespace Sys2Proof.Machine

/-- One tick. With `clock = 0` nothing changes (R148; log entry 11). An asserted tick with `reset_n = 0` clears the five
elements, whatever the instruction would have done (R124, R55; log entry 17). Any other asserted tick runs the
instruction in the row that PC names (R139, R140). -/
def tick (p : Pulse) (s : State) : Host.Outcome State Fault Refusal :=
  if p.clock = false then .next s
  else if p.resetN = false then .next s.clear
  else exec (decode s.fetch) s

/-- The next tick, drawn from the clock generator. With no pulse to come (manual mode, and the host issues none) every
element holds (60_exceptions.md R194; log entry 3). -/
def nextTick (s : State) : Host.Outcome State Fault Refusal :=
  match s.pulse with
  | none => .next s
  | some p => tick p s.afterPulse

/-- `s` with the word `w` in the row that the next tick fetches, and the clock such that the next tick runs it: the mode
stays as it is where its next pulse is `(1, 1)`, and is the automatic 1 Hz mode otherwise. -/
def State.withNextWord (s : State) (w : Word) : State :=
  { s with
    rom  := s.rom.write s.pc w
    mode := if s.pulse = some runPulse then s.mode else .hz1 }

end Sys2Proof.Machine
end

