-- ==== Sys2Proof/Machine/Step.lean ====
section
/-! DEFINITION. The step of the machine, and the host's way to place an instruction before it. -/

namespace Sys2Proof.Machine

/-- One step: the next tick of the clock generator (41_sequential_and_cycle.md R147). -/
def step (s : State) : Host.Outcome State Fault Refusal := nextTick s

/-- `s` with an instruction of `nbits` bits `w` (bits above them 0) in the row the next step fetches (log entry 2). -/
def State.withFetchWord (s : State) (nbits w : Nat) : State :=
  s.withNextWord (BitVec.ofNat 8 (w % 2 ^ nbits))

end Sys2Proof.Machine
end

