-- ==== Sys2Proof/Machine/Datapath.lean ====
section
/-! DEFINITION. The machine as the source wires it, gate by gate: address resolver and ROM block, instruction decoder,
multiplexer, and the six steps of the cycle over the clocked elements (40_combinational_blocks.md R100 to R112;
41_sequential_and_cycle.md R130, R137 to R144). It names no instruction: its only input is the fetched word. The step
function goes by instructions instead (Machine/Tick.lean); that the two agree is a statement for the provers. Also the
step function of R147 as the spec prints it. -/

namespace Sys2Proof.Machine

/-- Address resolver: the one-hot vector of the value `a + 2*b + 4*c + 8*d` of a 4-bit address (R100). Its two enables are
tied to 0 inside it, and no input sets them (R102; log entry 12). -/
def resolve (addr : Nibble) : BitVec 16 :=
  1#16 <<< ((addr.getLsbD 0).toNat + 2 * (addr.getLsbD 1).toNat + 4 * (addr.getLsbD 2).toNat + 8 * (addr.getLsbD 3).toNat)

/-- The rows `k`, …, `k + n - 1`, each ANDed with its select line, ORed together (log entry 12). -/
def selectRows (sel : BitVec 16) (rom : Memory) (k : Nat) : Nat → Word
  | 0 => 0
  | n + 1 => (if sel.getLsbD k then rom.read k else 0) ||| selectRows sel rom (k + 1) n

/-- The ROM block: the address through the address resolver, then the selected row (R130). -/
def romBlock (rom : Memory) (addr : Nibble) : Word := selectRows (resolve addr) rom 0 Config.romRows

/-- The instruction decoder's six outputs (R107). -/
structure Control where
  selectA : Bool
  selectB : Bool
  /-- Load-enable of register A, active low. -/
  load0N  : Bool
  /-- Load-enable of register B, active low. -/
  load1N  : Bool
  /-- Load-enable of register C, active low. -/
  load2N  : Bool
  /-- Load-enable of the program counter, active low. -/
  load3N  : Bool
  deriving DecidableEq, Repr

/-- The decoder's formulas, on the opcode bits and the negated carry flag (R106, R108). -/
def decoderOutputs (op0 op1 op2 op3 negatedCarryFlag : Bool) : Control where
  selectA := gOr op0 op3
  selectB := op1
  load0N := gOr op2 op3
  load1N := gOr (gNot op2) op3
  load2N := gNandN (gNot op2) op3 []
  load3N := gNandN op2 op3 [gOr op0 negatedCarryFlag]

/-- The decoder on an opcode field and the carry flag (R62, R140). -/
def controlOf (op : Nibble) (cf : Bool) : Control :=
  decoderOutputs (op.getLsbD 0) (op.getLsbD 1) (op.getLsbD 2) (op.getLsbD 3) (gNot cf)

/-- One bit of the multiplexer (R103). -/
def muxBit (a b c0 c1 c2 c3 : Bool) : Bool :=
  gOrN (gAndN c0 (gNot a) [gNot b]) (gAndN c1 a [gNot b]) [gAndN c2 (gNot a) [b], gAndN c3 a [b]]

/-- The bit-sliced multiplexer (R103). -/
def mux (a b : Bool) (c0 c1 c2 c3 : Nibble) : Nibble :=
  nibbleOfBits
    (muxBit a b (c0.getLsbD 0) (c1.getLsbD 0) (c2.getLsbD 0) (c3.getLsbD 0))
    (muxBit a b (c0.getLsbD 1) (c1.getLsbD 1) (c2.getLsbD 1) (c3.getLsbD 1))
    (muxBit a b (c0.getLsbD 2) (c1.getLsbD 2) (c2.getLsbD 2) (c3.getLsbD 2))
    (muxBit a b (c0.getLsbD 3) (c1.getLsbD 3) (c2.getLsbD 3) (c3.getLsbD 3))

/-- The signals of one tick, recomputed from the sample every tick (10_state.md R27). -/
structure Signals where
  /-- The fetched word. -/
  ir   : Word
  /-- The decoded control signals. -/
  ctrl : Control
  /-- The multiplexer's output. -/
  sel  : Nibble
  /-- The main ALU's carry-out and sum. -/
  out  : AluOut
  deriving DecidableEq, Repr

/-- Steps 1 to 5 of the cycle: sample, fetch, decode, select, add (R138 to R142). -/
def State.signals (s : State) : Signals :=
  let ir := romBlock s.rom s.pc
  let ctrl := controlOf (opcodeOf ir) s.cf
  let sel := mux ctrl.selectA ctrl.selectB s.a s.b inputPort constantZero
  { ir := ir, ctrl := ctrl, sel := sel, out := alu s.cf sel (immOf ir) }

/-- Step 6: the five elements advance together on the same signals and the same `reset_n` (R143, R144). A tick with
`clock = 0` changes nothing (R148). -/
def cycle (p : Pulse) (s : State) : State :=
  if p.clock = false then s
  else
    let g := s.signals
    { s with
      a  := registerNext g.ctrl.load0N p.resetN g.out.sum s.a
      b  := registerNext g.ctrl.load1N p.resetN g.out.sum s.b
      c  := registerNext g.ctrl.load2N p.resetN g.out.sum s.c
      pc := counterNext g.ctrl.load3N p.resetN g.out.sum s.pc
      cf := flipFlopNext carryLoadN p.resetN g.out.cout s.cf }

/-- The step function in the words of R147: no gate, no instruction name, the sum and the carry as remainder and quotient
of an unbounded total. A tick with `clock = 0` is R148. -/
def stepRule (p : Pulse) (s : State) : State :=
  let ir := s.rom.read s.pc.toNat
  let op0 := ir.getLsbD 4
  let op1 := ir.getLsbD 5
  let op2 := ir.getLsbD 6
  let op3 := ir.getLsbD 7
  let im := ir.extractLsb' 0 4
  let ncf := !s.cf
  let selectA := op0 || op3
  let selectB := op1
  let load0N := op2 || op3
  let load1N := !op2 || op3
  let load2N := !(!op2 && op3)
  let load3N := !(op2 && op3 && (op0 || ncf))
  let sel : Nibble :=
    match selectA, selectB with
    | false, false => s.a
    | true, false => s.b
    | false, true => 0
    | true, true => 0
  let t := s.cf.toNat + sel.toNat + im.toNat
  let sum : Nibble := BitVec.ofNat 4 (t % 16)
  let cout := decide (t / 16 = 1)
  if p.clock = false then s
  else if p.resetN = false then { s with a := 0, b := 0, c := 0, pc := 0, cf := false }
  else
    { s with
      a  := if load0N = false then sum else s.a
      b  := if load1N = false then sum else s.b
      c  := if load2N = false then sum else s.c
      pc := if load3N = false then sum else BitVec.ofNat 4 ((s.pc.toNat + 1) % 16)
      cf := cout }

end Sys2Proof.Machine
end

