-- ==== Sys2Proof/Machine/Assembler.lean ====
section
/-! DEFINITION. The assembler, the toolchain that defines the ROM image (30_encoding.md R72 to R82). It is software and
runs before a run; its errors are no faults of the hardware (60_exceptions.md R190). What the spec leaves open of it is a
parameter, `AsmOpen` (R79, D26; log entries 15 and 18). -/

namespace Sys2Proof.Machine

/-- The three errors (R78). A line is numbered from 0, as R80 numbers the rows (log entry 15). -/
inductive AsmError where
  /-- An empty line, or a token count that is not 2 or 3. Raised by the assembler; safe, no ROM exists. -/
  | syntaxError (line : Nat)
  /-- The instruction and operands are in no row of the operand table. Raised by the assembler; safe, no ROM exists. -/
  | operationError (line : Nat)
  /-- More than 16 lines, with its line number (R190). Which number that is, no rule says: R78 has "nothing stated". It is
  left open, `AsmOpen.capacityLine` (log entry 15). Raised by the assembler; safe, no ROM exists. -/
  | capacityError (line : Nat)
  deriving DecidableEq, Repr

/-- What the spec leaves open of the assembler: every value is a reading that the spec allows (R79, D26). -/
structure AsmOpen where
  /-- Which whitespace characters other than the space count as whitespace; of no other character is it asked. -/
  countsAsSpace : Char → Bool
  /-- Mnemonics are matched without regard to letter case. -/
  mnemonicsAnyCase : Bool
  /-- Register names are matched without regard to letter case. -/
  registersAnyCase : Bool
  /-- A newline at the very end of the text ends the last line instead of starting an empty one. -/
  finalNewlineEndsLine : Bool
  /-- The line number that the capacity error of a program carries, from the program's lines. -/
  capacityLine : List (List Char) → Nat
  /-- Which of the errors that apply to a program is reported, as an index into their list. -/
  report : List AsmError → Nat

/-- A token's characters. -/
abbrev Token := List Char

/-- The characters that some reading may count as whitespace. PRESUMED: the spec has no such list; these are Unicode's white
space and the four ASCII separators 1C to 1F (log entry 18). -/
def whitespaceChar (ch : Char) : Bool :=
  let n := ch.toNat
  (decide (0x09 ≤ n) && decide (n ≤ 0x0D)) || (decide (0x1C ≤ n) && decide (n ≤ 0x20)) ||
    (decide (0x2000 ≤ n) && decide (n ≤ 0x200A)) ||
    [0x85, 0xA0, 0x1680, 0x2028, 0x2029, 0x202F, 0x205F, 0x3000].contains n

/-- The character delimits tokens (R72): the space under every reading, another only if it is a whitespace character that
this reading counts (D26). -/
def AsmOpen.separates (o : AsmOpen) (ch : Char) : Bool := ch == ' ' || (whitespaceChar ch && o.countsAsSpace ch)

/-- A token's letters as they are looked up: as typed, or in upper case where case does not matter (R79, D26). -/
def lettersOf (anyCase : Bool) (t : Token) : Token := if anyCase then t.map Char.toUpper else t

/-- The tokens of a line, `acc` holding the token being read, last character first. DESIGN CHOICE: a run of delimiters
delimits as one does, and delimiters before the first token or after the last start no token, so no token is empty; the
spec names only single spaces between tokens as what every reading accepts (D26; log entry 15). -/
def tokensFrom (separates : Char → Bool) (acc : Token) : List Char → List Token
  | [] => if acc = [] then [] else [acc.reverse]
  | ch :: rest =>
    if separates ch then
      (if acc = [] then tokensFrom separates [] rest else acc.reverse :: tokensFrom separates [] rest)
    else tokensFrom separates (ch :: acc) rest

/-- The whitespace-delimited tokens of a line (R72). -/
def tokens (o : AsmOpen) (line : List Char) : List Token := tokensFrom o.separates [] line

/-- A binary digit. -/
def binaryDigit (ch : Char) : Option Bool := if ch = '0' then some false else if ch = '1' then some true else none

/-- An operand, by kind (R73). An immediate keeps its four digits as typed, MSB first (R74). -/
inductive AsmOperand where
  | regA
  | regB
  | imm (d3 d2 d1 d0 : Bool)
  deriving DecidableEq, Repr

/-- The immediate a token spells: exactly four characters, each `0` or `1` (R73). -/
def immediateToken : Token → Option AsmOperand
  | [c3, c2, c1, c0] => do
    let d3 ← binaryDigit c3
    let d2 ← binaryDigit c2
    let d1 ← binaryDigit c1
    let d0 ← binaryDigit c0
    return .imm d3 d2 d1 d0
  | _ => none

/-- The operand a token names: an immediate, or a register by name; `C` is no operand name (R73). -/
def operandToken (o : AsmOpen) (t : Token) : Option AsmOperand :=
  match immediateToken t with
  | some i => some i
  | none =>
    let name := lettersOf o.registersAnyCase t
    if name = ['A'] then some .regA else if name = ['B'] then some .regB else none

/-- The six mnemonics (R72). -/
inductive Mnemonic where
  | mov | add | inp | out | jmp | jnc
  deriving DecidableEq, Repr

/-- The mnemonic a token names (R72). -/
def mnemonicToken (o : AsmOpen) (t : Token) : Option Mnemonic :=
  let name := lettersOf o.mnemonicsAnyCase t
  if name = ['M', 'O', 'V'] then some .mov
  else if name = ['A', 'D', 'D'] then some .add
  else if name = ['I', 'N'] then some .inp
  else if name = ['O', 'U', 'T'] then some .out
  else if name = ['J', 'M', 'P'] then some .jmp
  else if name = ['J', 'N', 'C'] then some .jnc
  else none

/-- The operand table: the word of a form, MSB first, `op3 op2 op1 op0` and then the immediate as typed; a form with no
immediate token has 0000 there (R76, R77; log entry 9). -/
def operandTable (m : Mnemonic) (ops : List AsmOperand) : Option (List Bool) :=
  let zeros := [false, false, false, false]
  match m, ops with
  | .add, [.regA, .imm d3 d2 d1 d0] => some ([false, false, false, false] ++ [d3, d2, d1, d0])
  | .add, [.regB, .imm d3 d2 d1 d0] => some ([false, true, false, true] ++ [d3, d2, d1, d0])
  | .mov, [.regA, .imm d3 d2 d1 d0] => some ([false, false, true, true] ++ [d3, d2, d1, d0])
  | .mov, [.regB, .imm d3 d2 d1 d0] => some ([false, true, true, true] ++ [d3, d2, d1, d0])
  | .mov, [.regA, .regB] => some ([false, false, false, true] ++ zeros)
  | .mov, [.regB, .regA] => some ([false, true, false, false] ++ zeros)
  | .inp, [.regA] => some ([false, false, true, false] ++ zeros)
  | .inp, [.regB] => some ([false, true, true, false] ++ zeros)
  | .out, [.regB] => some ([true, false, false, true] ++ zeros)
  | .out, [.imm d3 d2 d1 d0] => some ([true, false, true, true] ++ [d3, d2, d1, d0])
  | .jmp, [.imm d3 d2 d1 d0] => some ([true, true, true, true] ++ [d3, d2, d1, d0])
  | .jnc, [.imm d3 d2 d1 d0] => some ([true, true, true, false] ++ [d3, d2, d1, d0])
  | _, _ => none

/-- The value of a row's bits, column 0 the bit of weight 1 (R81). -/
def rowValue : List Bool → Nat
  | [] => 0
  | b :: bs => b.toNat + 2 * rowValue bs

/-- The Instruction Word of a row of the ROM bit-matrix (R44, R81). -/
def wordOfRow (bits : List Bool) : Word := BitVec.ofNat 8 (rowValue bits)

/-- The operands that tokens name, if each names one. -/
def operandTokens (o : AsmOpen) : List Token → Option (List AsmOperand)
  | [] => some []
  | t :: ts => do
    let x ← operandToken o t
    let xs ← operandTokens o ts
    return x :: xs

/-- The row of a line `INSTR OP1 [OP2]`: the string of the operand table, reversed to put bit 0 first (R74, R75). -/
def assembleTokens (o : AsmOpen) (k : Nat) : List Token → Except AsmError (List Bool)
  | t :: ts =>
    if ts.length = 1 ∨ ts.length = 2 then
      match (do operandTable (← mnemonicToken o t) (← operandTokens o ts)) with
      | some msbFirst => .ok msbFirst.reverse
      | none => .error (.operationError k)
    else .error (.syntaxError k)
  | [] => .error (.syntaxError k)

/-- One line, number `k` (R72, R78). -/
def assembleLine (o : AsmOpen) (k : Nat) (line : List Char) : Except AsmError (List Bool) :=
  assembleTokens o k (tokens o line)

/-- The rows of the lines from number `k` on that assemble, and the errors of those that do not. -/
def assembleLines (o : AsmOpen) (k : Nat) : List (List Char) → List (List Bool) × List AsmError
  | [] => ([], [])
  | l :: ls =>
    let rest := assembleLines o (k + 1) ls
    match assembleLine o k l with
    | .ok row => (row :: rest.1, rest.2)
    | .error e => (rest.1, e :: rest.2)

/-- Every error that applies to a program: those of its lines, and the capacity error (R78, R190). -/
def assembleErrors (o : AsmOpen) (lines : List (List Char)) : List AsmError :=
  (assembleLines o 0 lines).2 ++ (if Config.romRows < lines.length then [.capacityError (o.capacityLine lines)] else [])

/-- An all-zero row (R80). -/
def zeroRow : List Bool := List.replicate 8 false

/-- A program, line by line: the ROM bit-matrix, 16 rows of 8 columns, or one of the errors that apply; no partial success
(R78, R80, R81). -/
def assembleProgram (o : AsmOpen) (lines : List (List Char)) : Except AsmError (List (List Bool)) :=
  match assembleErrors o lines with
  | [] => .ok ((assembleLines o 0 lines).1 ++ List.replicate (Config.romRows - lines.length) zeroRow)
  | e :: es => .error ((e :: es).getD (o.report (e :: es) % (es.length + 1)) e)

/-- The lines of a text, `acc` holding the line being read, last character first (R72, R80). -/
def linesFrom (finalNewlineEndsLine : Bool) (acc : List Char) : List Char → List (List Char)
  | [] => [acc.reverse]
  | ch :: rest =>
    if ch = '\n' then
      (if finalNewlineEndsLine && rest.isEmpty then [acc.reverse]
       else acc.reverse :: linesFrom finalNewlineEndsLine [] rest)
    else linesFrom finalNewlineEndsLine (ch :: acc) rest

/-- A program's text, newline-delimited lines (R72, R80). -/
def assemble (o : AsmOpen) (text : List Char) : Except AsmError (List (List Bool)) :=
  assembleProgram o (linesFrom o.finalNewlineEndsLine [] text)

/-- The state before the first tick of a run: the power-on state with the image in the ROM (70_reset_and_hazards.md R205). -/
def State.load (s : State) (image : List (List Bool)) : State :=
  { s with rom := Memory.ofRows (image.map wordOfRow) }

/-- Assemble, then load the ROM: a program that fails to assemble never reaches the ROM (R206). -/
def State.boot (o : AsmOpen) (text : List Char) : Except AsmError State :=
  match assemble o text with
  | .ok image => .ok (State.reset.load image)
  | .error e => .error e

end Sys2Proof.Machine
end

