-- ==== Sys2Proof/Machine/Snapshot.lean ====
section
/-! DEFINITION. The observable snapshot, exposed once per cycle and read-only (41_sequential_and_cycle.md R145). The state
values are the pre-tick sample (log entry 13). The step counter is the host's (60_exceptions.md R188): an argument. -/

namespace Sys2Proof.Machine

/-- The items of R145. Their layout as bit-strings is display formatting, out of scope (00_scope.md R4). -/
structure Snapshot where
  stepCount  : Nat
  pc         : Nibble
  /-- The output-port value: register C. -/
  outputPort : Nibble
  a          : Nibble
  b          : Nibble
  cf         : Bool
  /-- The fetched opcode, `ir[7:4]`. -/
  opcode     : Nibble
  ctrl       : Control
  /-- The multiplexer result. -/
  sel        : Nibble
  /-- The ALU carry and sum. -/
  aluOut     : AluOut
  deriving DecidableEq, Repr

/-- The snapshot of the cycle that starts in `s`, the host's step counter at `n`. -/
def State.snapshot (n : Nat) (s : State) : Snapshot :=
  let g := s.signals
  { stepCount := n, pc := s.pc, outputPort := s.out, a := s.a, b := s.b, cf := s.cf
    opcode := opcodeOf g.ir, ctrl := g.ctrl, sel := g.sel, aluOut := g.out }

end Sys2Proof.Machine
end

