-- ==== Sys2Proof/Safety.lean ====
section
/-! DEFINITION. What counts as a safe state and a safe run, and the terms claims use. -/

namespace Sys2Proof

open Machine

/-- The invariant: the ROM is in its canonical form, rows 0 to 15 only. The other fields have no illegal value
(00_scope.md R5; 60_exceptions.md R191). -/
def MachineInv (s : State) : Prop := s.rom.wf = true

/-- The next tick is one that runs an instruction: `clock = 1` and `reset_n = 1`. -/
def RunTick (s : State) : Prop := s.pulse = some runPulse

/-- A pulse that resets: `clock = 1`, `reset_n = 0` (41_sequential_and_cycle.md R136). -/
def resetPulse : Pulse := ⟨true, false⟩

/-- The state after `n` steps, or the first stop: the number of ticks is the host's (41_sequential_and_cycle.md R146). -/
def runSteps : Nat → State → Host.Outcome State Fault Refusal
  | 0, s => .next s
  | n + 1, s =>
    match step s with
    | .next t => runSteps n t
    | .fault r => .fault r
    | .refused r => .refused r

/-- The unbounded total of an instruction: `t = CF + val(sel) + val(Im)` (R147). -/
def total (s : State) (sel im : Nibble) : Nat := s.cf.toNat + sel.toNat + im.toNat

/-- `t mod 16` as a 4-bit value (R147). -/
def sumOf (t : Nat) : Nibble := BitVec.ofNat 4 (t % 16)

/-- `t div 16` as a flag (R147). -/
def carryOf (t : Nat) : Bool := decide (t / 16 = 1)

/-- `(PC + 1) mod 16` (10_state.md R37). -/
def nextRow (pc : Nibble) : Nibble := BitVec.ofNat 4 ((pc.toNat + 1) % 16)

/-- The digits of an immediate as typed, leftmost `Im[3]` (30_encoding.md R74). -/
def digitsOf (im : Nibble) : List Char :=
  [if im.getLsbD 3 then '1' else '0', if im.getLsbD 2 then '1' else '0',
   if im.getLsbD 1 then '1' else '0', if im.getLsbD 0 then '1' else '0']

/-- The twelve accepted forms of a line, as tokens, each with its instruction (R76, R77): the whole of the operand table. The
mnemonic and the register names are read under `o`; an immediate is its four digits as typed. -/
inductive AcceptedForm (o : AsmOpen) : List Token → Instr → Prop
  | addA (m r : Token) (im : Nibble) : lettersOf o.mnemonicsAnyCase m = ['A', 'D', 'D'] →
      lettersOf o.registersAnyCase r = ['A'] → AcceptedForm o [m, r, digitsOf im] (.addAIm im)
  | addB (m r : Token) (im : Nibble) : lettersOf o.mnemonicsAnyCase m = ['A', 'D', 'D'] →
      lettersOf o.registersAnyCase r = ['B'] → AcceptedForm o [m, r, digitsOf im] (.addBIm im)
  | movAIm (m r : Token) (im : Nibble) : lettersOf o.mnemonicsAnyCase m = ['M', 'O', 'V'] →
      lettersOf o.registersAnyCase r = ['A'] → AcceptedForm o [m, r, digitsOf im] (.movAIm im)
  | movBIm (m r : Token) (im : Nibble) : lettersOf o.mnemonicsAnyCase m = ['M', 'O', 'V'] →
      lettersOf o.registersAnyCase r = ['B'] → AcceptedForm o [m, r, digitsOf im] (.movBIm im)
  | movAB (m r q : Token) : lettersOf o.mnemonicsAnyCase m = ['M', 'O', 'V'] →
      lettersOf o.registersAnyCase r = ['A'] → lettersOf o.registersAnyCase q = ['B'] →
      AcceptedForm o [m, r, q] (.movAB 0)
  | movBA (m r q : Token) : lettersOf o.mnemonicsAnyCase m = ['M', 'O', 'V'] →
      lettersOf o.registersAnyCase r = ['B'] → lettersOf o.registersAnyCase q = ['A'] →
      AcceptedForm o [m, r, q] (.movBA 0)
  | inA (m r : Token) : lettersOf o.mnemonicsAnyCase m = ['I', 'N'] → lettersOf o.registersAnyCase r = ['A'] →
      AcceptedForm o [m, r] (.inA 0)
  | inB (m r : Token) : lettersOf o.mnemonicsAnyCase m = ['I', 'N'] → lettersOf o.registersAnyCase r = ['B'] →
      AcceptedForm o [m, r] (.inB 0)
  | outB (m r : Token) : lettersOf o.mnemonicsAnyCase m = ['O', 'U', 'T'] → lettersOf o.registersAnyCase r = ['B'] →
      AcceptedForm o [m, r] (.outB 0)
  | outIm (m : Token) (im : Nibble) : lettersOf o.mnemonicsAnyCase m = ['O', 'U', 'T'] →
      AcceptedForm o [m, digitsOf im] (.outIm im)
  | jmp (m : Token) (im : Nibble) : lettersOf o.mnemonicsAnyCase m = ['J', 'M', 'P'] →
      AcceptedForm o [m, digitsOf im] (.jmp im)
  | jnc (m : Token) (im : Nibble) : lettersOf o.mnemonicsAnyCase m = ['J', 'N', 'C'] →
      AcceptedForm o [m, digitsOf im] (.jnc im)

/-- The bits of a word as a ROM row stores them, column 0 the bit of weight 1 (R81). -/
def rowOf (w : Word) : List Bool := (List.range 8).map w.getLsbD

/-- On any line number, the line assembles to a row of 8 columns that is the word of `i`. -/
def AssemblesTo (o : AsmOpen) (line : List Char) (i : Instr) : Prop :=
  ∀ k, ∃ row, assembleLine o k line = .ok row ∧ row.length = 8 ∧ wordOfRow row = encode i

end Sys2Proof
end

