-- ==== Sys2Proof/Certificates/Slice0/Obligations.lean ====
section
/-! DEFINITION. The statements for the provers. Each `def Obligations.<Name>` says what its name says; OBLIGATIONS.json lists
them. A statement marked "derived" rests on a sentence that the spec itself marks as its own derivation or decision, or on
a choice of the model's; its docstring names it. -/

open Sys2Proof Sys2Proof.Machine

/-! ## Combinational blocks -/

/-- The gates have the truth tables of R90 and R91, and the derived gates their formulas (R91). -/
def Obligations.GatesMatchTruthTables : Prop :=
  (gNot false = true ∧ gNot true = false) ∧
  (gAnd false false = false ∧ gAnd false true = false ∧ gAnd true false = false ∧ gAnd true true = true) ∧
  (gOr false false = false ∧ gOr false true = true ∧ gOr true false = true ∧ gOr true true = true) ∧
  (gNandN false false [] = true ∧ gNandN false true [] = true ∧ gNandN true false [] = true ∧
    gNandN true true [] = false) ∧
  (gNorN false false [] = true ∧ gNorN false true [] = false ∧ gNorN true false [] = false ∧
    gNorN true true [] = false) ∧
  (gXor false false = false ∧ gXor false true = true ∧ gXor true false = true ∧ gXor true true = false) ∧
  (∀ a b, gXor a b = gOr (gAnd a (gNot b)) (gAnd (gNot a) b)) ∧
  (∀ a b, gNandN a b [] = gNot (gAnd a b)) ∧
  (∀ a b, gNorN a b [] = gNot (gOr a b))

/-- The gates of two or more inputs (R92): each is a left fold, NAND and NOR negate it, a three-input NAND is 0 only when
all inputs are 1, the fold order does not change the result, and XOR is the parity of its inputs. -/
def Obligations.VariadicGatesFold : Prop :=
  (∀ x y, gAndN x y [] = gAnd x y ∧ gOrN x y [] = gOr x y ∧ gXorN x y [] = gXor x y) ∧
  (∀ x y zs z, gAndN x y (zs ++ [z]) = gAnd (gAndN x y zs) z ∧ gOrN x y (zs ++ [z]) = gOr (gOrN x y zs) z ∧
    gXorN x y (zs ++ [z]) = gXor (gXorN x y zs) z) ∧
  (∀ x y zs, gNandN x y zs = gNot (gAndN x y zs) ∧ gNorN x y zs = gNot (gOrN x y zs)) ∧
  (∀ x y z, gNandN x y [z] = false ↔ x = true ∧ y = true ∧ z = true) ∧
  (∀ x y z zs, gAndN x y (z :: zs) = gAnd x (gAndN y z zs) ∧ gOrN x y (z :: zs) = gOr x (gOrN y z zs) ∧
    gXorN x y (z :: zs) = gXor x (gXorN y z zs)) ∧
  (∀ x y zs, gXorN x y zs = decide ((x :: y :: zs).count true % 2 = 1))

/-- Half-adder and full-adder: their composition from gates, and that the two outputs are the binary sum of the inputs;
which two inputs of the full-adder meet first does not show (R93, R94). -/
def Obligations.AdderCellsAddBits : Prop :=
  (∀ a b, (halfAdder a b).carry = gAnd a b ∧ (halfAdder a b).sum = gXor a b ∧
    2 * (halfAdder a b).carry.toNat + (halfAdder a b).sum.toNat = a.toNat + b.toNat) ∧
  (∀ cin a b,
    (fullAdder cin a b).carry =
      gOr (halfAdder a b).carry (halfAdder (halfAdder a b).sum cin).carry ∧
    (fullAdder cin a b).sum = (halfAdder (halfAdder a b).sum cin).sum ∧
    2 * (fullAdder cin a b).carry.toNat + (fullAdder cin a b).sum.toNat = cin.toNat + a.toNat + b.toNat ∧
    fullAdder cin a b = fullAdder a cin b ∧ fullAdder cin a b = fullAdder b a cin)

/-- The ripple-carry ALU adds exactly, for every carry-in and every pair of operands: the carry-out has weight 16, the sum
is the remainder and the carry-out the quotient of the total by 16 (R98). -/
def Obligations.AluAddsExactly : Prop :=
  ∀ (cin : Bool) (a b : Nibble),
    16 * (alu cin a b).cout.toNat + (alu cin a b).sum.toNat = cin.toNat + a.toNat + b.toNat ∧
    (alu cin a b).sum.toNat = (cin.toNat + a.toNat + b.toNat) % 16 ∧
    (alu cin a b).cout.toNat = (cin.toNat + a.toNat + b.toNat) / 16

/-- The address resolver's output is one-hot: line `i` is 1 exactly when `i = a + 2*b + 4*c + 8*d` for the address bits,
which is the address's value (R100). -/
def Obligations.AddressResolverIsOneHot : Prop :=
  ∀ (addr : Nibble) (i : Nat), i < 16 →
    ((resolve addr).getLsbD i = true ↔
      i = (addr.getLsbD 0).toNat + 2 * (addr.getLsbD 1).toNat + 4 * (addr.getLsbD 2).toNat +
        8 * (addr.getLsbD 3).toNat) ∧
    ((resolve addr).getLsbD i = true ↔ i = addr.toNat)

/-- The ROM block, through its address resolver, outputs the row that the address names, for any contents. Derived: R42
marks it as the spec's decision D24, and the row-selecting network is the model's choice, log entry 12. -/
def Obligations.RomBlockReturnsNamedRow : Prop :=
  ∀ (rom : Memory) (addr : Nibble), romBlock rom addr = rom.read addr.toNat

/-- The multiplexer returns the input that its select code names, for arbitrary inputs, and exactly one of the four select
terms of the bit formula is 1 (R104). -/
def Obligations.MultiplexerSelectsByCode : Prop :=
  ∀ (a b : Bool) (c0 c1 c2 c3 : Nibble),
    mux false false c0 c1 c2 c3 = c0 ∧ mux true false c0 c1 c2 c3 = c1 ∧
    mux false true c0 c1 c2 c3 = c2 ∧ mux true true c0 c1 c2 c3 = c3 ∧
    [c0, c1, c2, c3][a.toNat + 2 * b.toNat]? = some (mux a b c0 c1 c2 c3) ∧
    (gAnd (gNot a) (gNot b)).toNat + (gAnd a (gNot b)).toNat + (gAnd (gNot a) b).toNat + (gAnd a b).toNat = 1

/-- The instruction decoder's six formulas and what they say in words: the two high opcode bits pick which load-enable is
0, and `load3_` is 0 only for `op0` = 1 or `CF` = 0 (R108). -/
def Obligations.DecoderFollowsFormulas : Prop :=
  ∀ op0 op1 op2 op3 cf : Bool,
    let g := decoderOutputs op0 op1 op2 op3 (!cf)
    g = ⟨gOr op0 op3, op1, gOr op2 op3, gOr (gNot op2) op3, gNandN (gNot op2) op3 [],
      gNandN op2 op3 [gOr op0 (!cf)]⟩ ∧
    (g.load0N = false ↔ op3 = false ∧ op2 = false) ∧
    (g.load1N = false ↔ op3 = false ∧ op2 = true) ∧
    (g.load2N = false ↔ op3 = true ∧ op2 = false) ∧
    (g.load3N = false ↔ (op3 = true ∧ op2 = true) ∧ (op0 = true ∨ cf = false))

/-- The decoder truth table of R110, all sixteen opcodes and both flag values, and from it that exactly one load-enable is
0 but for opcodes 1100 and 1110 with `CF` = 1, where none is. Derived: R110 and R111 are marked as the spec's own
derivation from R108. -/
def Obligations.DecoderTruthTable : Prop :=
  (∀ cf : Bool,
    controlOf 0b0000#4 cf = ⟨false, false, false, true, true, true⟩ ∧
    controlOf 0b0001#4 cf = ⟨true, false, false, true, true, true⟩ ∧
    controlOf 0b0010#4 cf = ⟨false, true, false, true, true, true⟩ ∧
    controlOf 0b0011#4 cf = ⟨true, true, false, true, true, true⟩ ∧
    controlOf 0b0100#4 cf = ⟨false, false, true, false, true, true⟩ ∧
    controlOf 0b0101#4 cf = ⟨true, false, true, false, true, true⟩ ∧
    controlOf 0b0110#4 cf = ⟨false, true, true, false, true, true⟩ ∧
    controlOf 0b0111#4 cf = ⟨true, true, true, false, true, true⟩ ∧
    controlOf 0b1000#4 cf = ⟨true, false, true, true, false, true⟩ ∧
    controlOf 0b1001#4 cf = ⟨true, false, true, true, false, true⟩ ∧
    controlOf 0b1010#4 cf = ⟨true, true, true, true, false, true⟩ ∧
    controlOf 0b1011#4 cf = ⟨true, true, true, true, false, true⟩ ∧
    controlOf 0b1100#4 cf = ⟨true, false, true, true, true, cf⟩ ∧
    controlOf 0b1101#4 cf = ⟨true, false, true, true, true, false⟩ ∧
    controlOf 0b1110#4 cf = ⟨true, true, true, true, true, cf⟩ ∧
    controlOf 0b1111#4 cf = ⟨true, true, true, true, true, false⟩) ∧
  (∀ (op : Nibble) (cf : Bool),
    [(controlOf op cf).load0N, (controlOf op cf).load1N, (controlOf op cf).load2N, (controlOf op cf).load3N].count false =
      if cf = true ∧ (op = 0b1100#4 ∨ op = 0b1110#4) then 0 else 1)

/-! ## Clocked elements -/

/-- The Register's transition: reset gives zero over everything, an active load takes the input, else it holds; a load,
two holds and a reset give the loaded value three times and then zero, whatever the last tick's load line (R121). -/
def Obligations.RegisterLoadsHoldsResets : Prop :=
  (∀ (loadN resetN : Bool) (d q : Nibble),
    (resetN = false → registerNext loadN resetN d q = 0) ∧
    (resetN = true → loadN = false → registerNext loadN resetN d q = d) ∧
    (resetN = true → loadN = true → registerNext loadN resetN d q = q)) ∧
  (∀ (v q d2 d3 d4 : Nibble) (loadN : Bool),
    let q1 := registerNext false true v q
    let q2 := registerNext true true d2 q1
    let q3 := registerNext true true d3 q2
    [q1, q2, q3, registerNext loadN false d4 q3] = [v, v, v, 0])

/-- The Counter loads when its load line is 0 and counts when it is 1, never holds, and `k` counts from `q` give
`(q + k) mod 16`, also after a load. Derived: the polarity is the spec's decision D2 (R122), log entry 7. -/
def Obligations.CounterLoadsOrCounts : Prop :=
  (∀ d q : Nibble, counterNext false true d q = d ∧ (counterNext true true d q).toNat = (q.toNat + 1) % 16 ∧
    counterNext true true d q ≠ q ∧ counterNext true false d q = 0 ∧ counterNext false false d q = 0) ∧
  (∀ (k : Nat) (d d' q : Nibble),
    ((counterNext true true d)^[k] q).toNat = (q.toNat + k) % 16 ∧
    ((counterNext true true d)^[k] (counterNext false true d' q)).toNat = (d'.toNat + k) % 16)

/-- The counter's increment is its own ALU's sum with the constant 1 and carry-in 0, the value plus one modulo 16, and
1111 gives 0000; it neither takes the carry flag nor gives its carry-out to it: after any instruction the flag is the
same whatever PC was, and where PC counts it counts the same whatever the flag was. Derived: the increment is R123; that
PC counts up, and never holds, where no load is asked for is R122, the spec's decision D2 (log entry 7), and that no load
is asked for below opcode 1100 is R110, the spec's own derivation. -/
def Obligations.IncrementIsModulo16AndOffTheFlag : Prop :=
  (∀ q : Nibble, inc q = (alu false q 0b0001#4).sum ∧ (inc q).toNat = (q.toNat + 1) % 16) ∧
  inc 0b1111#4 = 0b0000#4 ∧
  (∀ (i : Instr) (s : State) (q : Nibble), ∃ t t',
    exec i s = .next t ∧ exec i { s with pc := q } = .next t' ∧ t'.cf = t.cf) ∧
  (∀ (i : Instr) (s t : State), i.opcode.toNat < 12 → exec i s = .next t → t.pc = inc s.pc)

/-- Reset always wins and is synchronous: on an asserted tick with `reset_n` = 0 each element's next value is zero
whatever its load line, candidate and stored value, in the elements and in the whole machine; with no asserted clock it
does nothing. Derived: the priority is R124; that reset reaches all five elements is the spec's decision D18 (R201, log
entry 17), and that a tick with `clock` = 0 changes nothing is its decision D11 (R148, log entry 11). -/
def Obligations.ResetWinsAndIsSynchronous : Prop :=
  (∀ (loadN : Bool) (d q : Nibble), registerNext loadN false d q = 0 ∧ counterNext loadN false d q = 0) ∧
  (∀ loadN d q : Bool, flipFlopNext loadN false d q = false) ∧
  (∀ s : State, ∃ t, tick resetPulse s = .next t ∧ t.a = 0 ∧ t.b = 0 ∧ t.c = 0 ∧ t.pc = 0 ∧ t.cf = false) ∧
  (∀ (s : State) (resetN : Bool), tick ⟨false, resetN⟩ s = .next s)

/-! ## Encoding -/

/-- Every word is 16 times its opcode plus its immediate, the opcode's bit `i` is word bit `4 + i` and the immediate's bit
`i` is word bit `i`; so is the word that the encoder gives each instruction (R61). -/
def Obligations.WordFieldsSitAtTheirBits : Prop :=
  (∀ w : Word, w.toNat = 16 * (opcodeOf w).toNat + (immOf w).toNat ∧
    ∀ i, i < 4 → (opcodeOf w).getLsbD i = w.getLsbD (4 + i) ∧ (immOf w).getLsbD i = w.getLsbD i) ∧
  (∀ i : Instr, (encode i).toNat = 16 * i.opcode.toNat + i.im.toNat)

/-- The opcode map: each of the sixteen opcode values, with any immediate, decodes to its instruction; among the words, the
spec's worked encodings `MOV A 1010` 0x3A, `MOV A B` 0x10, `JMP 0000` 0xF0 (R82) and the all-zero word (R69). Derived: R64,
R69 and R82 are marked as the spec's own derivation, and the names are its decisions D7 and D8 (log entries 9 and 10). -/
def Obligations.OpcodeMapDecodes : Prop :=
  (decode 0x3A#8 = .movAIm 0b1010#4 ∧ decode 0x10#8 = .movAB 0b0000#4 ∧ decode 0xF0#8 = .jmp 0b0000#4 ∧
    decode 0x00#8 = .addAIm 0b0000#4) ∧
  ∀ im : Nibble,
    decode (0b0000#4 ++ im) = .addAIm im ∧ decode (0b0001#4 ++ im) = .movAB im ∧
    decode (0b0010#4 ++ im) = .inA im ∧ decode (0b0011#4 ++ im) = .movAIm im ∧
    decode (0b0100#4 ++ im) = .movBA im ∧ decode (0b0101#4 ++ im) = .addBIm im ∧
    decode (0b0110#4 ++ im) = .inB im ∧ decode (0b0111#4 ++ im) = .movBIm im ∧
    decode (0b1000#4 ++ im) = .outBAlt im ∧ decode (0b1001#4 ++ im) = .outB im ∧
    decode (0b1010#4 ++ im) = .outImAlt im ∧ decode (0b1011#4 ++ im) = .outIm im ∧
    decode (0b1100#4 ++ im) = .jncB im ∧ decode (0b1101#4 ++ im) = .jmpB im ∧
    decode (0b1110#4 ++ im) = .jnc im ∧ decode (0b1111#4 ++ im) = .jmp im

/-- Decode and encode are inverse to each other, on every instruction and on every word: no bit of an encoding is dropped
and no two words mean one instruction. Derived from R60 to R64. -/
def Obligations.DecodeAndEncodeAreInverse : Prop :=
  (∀ i : Instr, decode (encode i) = i) ∧ (∀ w : Word, encode (decode w) = w)

/-! ## Results of the instructions: each completes, in every state, with exactly this next state -/

/-- `ADD A Im` (R150). Derived: the rule is marked as the spec's own derivation and rests on its decisions D3 and D4 (log
entries 6 and 7). -/
def Obligations.AddAImResult : Prop :=
  ∀ (im : Nibble) (s : State),
    exec (.addAIm im) s = .next { s with
      a := sumOf (total s s.a im), cf := carryOf (total s s.a im), pc := nextRow s.pc }

/-- `MOV A B` (R151). Derived, as AddAImResult. -/
def Obligations.MovABResult : Prop :=
  ∀ (im : Nibble) (s : State),
    exec (.movAB im) s = .next { s with
      a := sumOf (total s s.b im), cf := carryOf (total s s.b im), pc := nextRow s.pc }

/-- `IN A` (R152): the input port reads 0000. Derived, as AddAImResult; also decision D6 (log entry 8). -/
def Obligations.InAResult : Prop :=
  ∀ (im : Nibble) (s : State),
    exec (.inA im) s = .next { s with
      a := sumOf (total s 0 im), cf := carryOf (total s 0 im), pc := nextRow s.pc }

/-- `MOV A Im` (R153). Derived, as AddAImResult. -/
def Obligations.MovAImResult : Prop :=
  ∀ (im : Nibble) (s : State),
    exec (.movAIm im) s = .next { s with
      a := sumOf (total s 0 im), cf := carryOf (total s 0 im), pc := nextRow s.pc }

/-- `MOV B A` (R154). Derived, as AddAImResult. -/
def Obligations.MovBAResult : Prop :=
  ∀ (im : Nibble) (s : State),
    exec (.movBA im) s = .next { s with
      b := sumOf (total s s.a im), cf := carryOf (total s s.a im), pc := nextRow s.pc }

/-- `ADD B Im` (R155). Derived, as AddAImResult. -/
def Obligations.AddBImResult : Prop :=
  ∀ (im : Nibble) (s : State),
    exec (.addBIm im) s = .next { s with
      b := sumOf (total s s.b im), cf := carryOf (total s s.b im), pc := nextRow s.pc }

/-- `IN B` (R156): the input port reads 0000. Derived, as InAResult. -/
def Obligations.InBResult : Prop :=
  ∀ (im : Nibble) (s : State),
    exec (.inB im) s = .next { s with
      b := sumOf (total s 0 im), cf := carryOf (total s 0 im), pc := nextRow s.pc }

/-- `MOV B Im` (R157). Derived, as AddAImResult. -/
def Obligations.MovBImResult : Prop :=
  ∀ (im : Nibble) (s : State),
    exec (.movBIm im) s = .next { s with
      b := sumOf (total s 0 im), cf := carryOf (total s 0 im), pc := nextRow s.pc }

/-- `OUT_B_ALT Im` (R160). Derived, as AddAImResult; the word executes by decision D8 (log entry 10). -/
def Obligations.OutBAltResult : Prop :=
  ∀ (im : Nibble) (s : State),
    exec (.outBAlt im) s = .next { s with
      c := sumOf (total s s.b im), cf := carryOf (total s s.b im), pc := nextRow s.pc }

/-- `OUT B` (R161). Derived, as AddAImResult. -/
def Obligations.OutBResult : Prop :=
  ∀ (im : Nibble) (s : State),
    exec (.outB im) s = .next { s with
      c := sumOf (total s s.b im), cf := carryOf (total s s.b im), pc := nextRow s.pc }

/-- `OUT_IM_ALT Im` (R162). Derived, as OutBAltResult. -/
def Obligations.OutImAltResult : Prop :=
  ∀ (im : Nibble) (s : State),
    exec (.outImAlt im) s = .next { s with
      c := sumOf (total s 0 im), cf := carryOf (total s 0 im), pc := nextRow s.pc }

/-- `OUT Im` (R163). Derived, as AddAImResult. -/
def Obligations.OutImResult : Prop :=
  ∀ (im : Nibble) (s : State),
    exec (.outIm im) s = .next { s with
      c := sumOf (total s 0 im), cf := carryOf (total s 0 im), pc := nextRow s.pc }

/-- `JNC_B Im` (R170): taken when `CF` = 0; the flag takes the carry-out taken or not. Derived, as OutBAltResult; also
decision D2 (log entry 7). -/
def Obligations.JncBResult : Prop :=
  ∀ (im : Nibble) (s : State),
    exec (.jncB im) s = .next { s with
      pc := if s.cf = false then sumOf (s.b.toNat + im.toNat) else nextRow s.pc
      cf := carryOf (total s s.b im) }

/-- `JMP_B Im` (R171). Derived, as JncBResult. -/
def Obligations.JmpBResult : Prop :=
  ∀ (im : Nibble) (s : State),
    exec (.jmpB im) s = .next { s with
      pc := sumOf (total s s.b im), cf := carryOf (total s s.b im) }

/-- `JNC Im` (R172): taken when `CF` = 0, to exactly `Im`, leaving `CF` = 0; not taken, `CF` becomes 1 only if `Im` =
1111. Derived, as JncBResult. -/
def Obligations.JncResult : Prop :=
  ∀ (im : Nibble) (s : State),
    (s.cf = false → exec (.jnc im) s = .next { s with pc := im, cf := false }) ∧
    (s.cf = true → exec (.jnc im) s = .next { s with pc := nextRow s.pc, cf := decide (im = 0b1111#4) })

/-- `JMP Im` (R173): to `Im` when `CF` = 0, to `Im` + 1 modulo 16 when `CF` = 1. Derived, as JncBResult. -/
def Obligations.JmpResult : Prop :=
  ∀ (im : Nibble) (s : State),
    exec (.jmp im) s = .next { s with
      pc := if s.cf = false then im else sumOf (im.toNat + 1)
      cf := carryOf (total s 0 im) }

/-! ## Frames -/

/-- The eight opcodes 0000 to 0111 leave C, every ROM row, the clock generator's mode and the host's pulses as they were
and count PC up; the opcodes below 0100 leave B, the others A. Derived: R158 is marked as the spec's own derivation. -/
def Obligations.MovAddInFrame : Prop :=
  ∀ (i : Instr) (s t : State), i.opcode.toNat < 8 → exec i s = .next t →
    t.c = s.c ∧ t.pc = nextRow s.pc ∧ (∀ k : Nat, t.rom.read k = s.rom.read k) ∧ t.mode = s.mode ∧
    t.pulses = s.pulses ∧ (if i.opcode.toNat < 4 then t.b = s.b else t.a = s.a)

/-- The four opcodes 1000 to 1011 leave A, B, every ROM row, the mode and the pulses as they were and count PC up, and
the output port shows the new C. Derived: R164 is marked as the spec's own derivation. -/
def Obligations.OutFrame : Prop :=
  ∀ (i : Instr) (s t : State), 8 ≤ i.opcode.toNat → i.opcode.toNat < 12 → exec i s = .next t →
    t.a = s.a ∧ t.b = s.b ∧ t.pc = nextRow s.pc ∧ (∀ k : Nat, t.rom.read k = s.rom.read k) ∧ t.mode = s.mode ∧
    t.pulses = s.pulses ∧ t.out = t.c

/-- The four opcodes 1100 to 1111 leave A, B, C, every ROM row, the mode and the pulses as they were, and a jump not taken
counts PC up. Derived: R174 is marked as the spec's own derivation. -/
def Obligations.JumpFrame : Prop :=
  ∀ (i : Instr) (s t : State), 12 ≤ i.opcode.toNat → exec i s = .next t →
    t.a = s.a ∧ t.b = s.b ∧ t.c = s.c ∧ (∀ k : Nat, t.rom.read k = s.rom.read k) ∧ t.mode = s.mode ∧
    t.pulses = s.pulses ∧ ((controlOf i.opcode s.cf).load3N = true → t.pc = nextRow s.pc)

/-! ## Consequences the spec draws -/

/-- The all-zero word changes only PC when `CF` = 0; when `CF` = 1 it adds one to A and leaves `CF` = 1 only if A was
1111. Derived: R69 is marked as the spec's own derivation; also decision D4 (log entry 6). -/
def Obligations.AllZeroWordIsNopOnlyWithoutCarry : Prop :=
  ∀ s : State,
    (s.cf = false → exec (decode 0x00#8) s = .next { s with pc := nextRow s.pc }) ∧
    (s.cf = true → exec (decode 0x00#8) s = .next { s with
      a := sumOf (s.a.toNat + 1), cf := decide (s.a = 0b1111#4), pc := nextRow s.pc })

/-- The carry-in hazard: `MOV A Im` and `MOV B Im` load exactly `Im`, `OUT Im` shows exactly `Im`, `JMP Im` goes exactly
to `Im`, and `MOV A B`, `MOV B A` and `OUT B` (`Im` = 0000) copy exactly, when and only when `CF` = 0. Derived: R209 is
marked as a consequence the spec draws, not a sentence of the source; also decision D4 (log entry 6). -/
def Obligations.PlainMeaningExactlyWithoutCarry : Prop :=
  ∀ (im : Nibble) (s : State),
    (∃ t, exec (.movAIm im) s = .next t ∧ (t.a = im ↔ s.cf = false)) ∧
    (∃ t, exec (.movBIm im) s = .next t ∧ (t.b = im ↔ s.cf = false)) ∧
    (∃ t, exec (.outIm im) s = .next t ∧ (t.c = im ↔ s.cf = false)) ∧
    (∃ t, exec (.jmp im) s = .next t ∧ (t.pc = im ↔ s.cf = false)) ∧
    (∃ t, exec (.movAB 0) s = .next t ∧ (t.a = s.b ↔ s.cf = false)) ∧
    (∃ t, exec (.movBA 0) s = .next t ∧ (t.b = s.a ↔ s.cf = false)) ∧
    (∃ t, exec (.outB 0) s = .next t ∧ (t.c = s.b ↔ s.cf = false))

/-- After a `JNC Im` that was not taken, `Im` not 1111, a `JNC` straight after it is taken. Derived: a corner case of R172,
which is marked as the spec's own derivation. -/
def Obligations.JncAfterUntakenJncIsTaken : Prop :=
  ∀ (im im' : Nibble) (s : State), s.cf = true → im ≠ 0b1111#4 →
    ∃ t u, exec (.jnc im) s = .next t ∧ t.pc = nextRow s.pc ∧ exec (.jnc im') t = .next u ∧ u.pc = im'

/-- No instruction reads PC as data: with another PC before it, an instruction leaves every other field the same, where it
loads PC it loads the same target, and otherwise each PC counts up. Derived: R37 is marked with the spec's decision D2
(log entry 7). -/
def Obligations.PcIsNeverAnOperand : Prop :=
  ∀ (i : Instr) (s : State) (q : Nibble), ∃ t t',
    exec i s = .next t ∧ exec i { s with pc := q } = .next t' ∧ t' = { t with pc := t'.pc } ∧
    (if (controlOf i.opcode s.cf).load3N = false then t'.pc = t.pc else t.pc = nextRow s.pc ∧ t'.pc = nextRow q)

/-! ## The tick and the step -/

/-- After an asserted tick with `reset_n` = 0 all five elements are zero, so the output port shows 0000; the ROM keeps its
contents, and nothing else changes, in every state (R201). -/
def Obligations.ResetTickClearsTheFiveElements : Prop :=
  ∀ s : State, ∃ t, tick resetPulse s = .next t ∧ t.out = 0 ∧
    t = { s with a := 0, b := 0, c := 0, pc := 0, cf := false }

/-- While `reset_n` stays 0 the state stays all-zero, and the instruction in row 0 is first executed on the first tick
with `reset_n` = 1 after it, from the all-zero state. Derived: R202 is marked as the spec's own derivation. -/
def Obligations.HeldResetThenRowZero : Prop :=
  ∀ (n : Nat) (s : State) (ps : List Pulse), s.mode = .manual →
    s.pulses = List.replicate (n + 1) resetPulse ++ runPulse :: ps →
    runSteps (n + 1) s = .next { s.clear with pulses := runPulse :: ps } ∧
    runSteps (n + 2) s = exec (decode (s.rom.read 0)) { s.clear with pulses := ps }

/-- A step whose tick is an asserted one with `reset_n` = 1 runs the instruction that the word in row PC decodes to, on
the state with that tick's pulse taken; taking it leaves everything but the host's list of pulses, and that too in the
automatic modes. Derived: the list of pulses is the model's, log entry 3. -/
def Obligations.StepRunsTheDecodedInstruction : Prop :=
  ∀ (s : State) (i : Instr), RunTick s → decode (s.rom.read s.pc.toNat) = i → i.wellFormed = true →
    step s = exec i s.afterPulse ∧
    s.afterPulse = { s with pulses := if s.mode = .manual then s.pulses.tail else s.pulses }

/-- A pulse with `clock` = 0 changes nothing but the host's list it was taken from, and in manual mode with no pulse to
come a step changes nothing. Derived: R148 is the spec's decision D11 (log entry 11); the step without a pulse is the
model's reading of R194 (log entry 3). -/
def Obligations.NoAssertedClockNoChange : Prop :=
  (∀ (s : State) (resetN : Bool) (ps : List Pulse), s.mode = .manual → s.pulses = ⟨false, resetN⟩ :: ps →
    step s = .next { s with pulses := ps }) ∧
  (∀ s : State, s.mode = .manual → s.pulses = [] → step s = .next s)

/-- In the automatic modes every pulse has `clock` = 1 and `reset_n` = 1, and stays so through the run. Derived: `reset_n` is
R135; that every generated pulse has `clock` = 1 is the spec's decision D19 (R134); that no step writes the mode, which
the model keeps in State, is the model's choice, log entry 3. -/
def Obligations.AutomaticModesNeverReset : Prop :=
  ∀ s : State, s.mode ≠ .manual →
    s.pulse = some runPulse ∧
    ∀ (n : Nat) (t : State), runSteps n s = .next t → t.mode = s.mode ∧ t.pulse = some runPulse

/-- The three clock modes give the same run: `n` ticks at 1 Hz, at 10 Hz, or issued by the host in manual mode leave the
same elements and ROM. Derived: it rests on R133 and R213 and on the model's clock generator, log entry 3. -/
def Obligations.ClockModesGiveTheSameRun : Prop :=
  ∀ (n : Nat) (s : State) (ps : List Pulse), ∃ t : State,
    runSteps n { s with mode := .hz1 } = .next { t with mode := .hz1 } ∧
    runSteps n { s with mode := .hz10 } = .next { t with mode := .hz10 } ∧
    runSteps n { s with mode := .manual, pulses := List.replicate n runPulse ++ ps } =
      .next { t with mode := .manual, pulses := ps }

/-- A word placed with `withFetchWord` is the one the very next step runs, from a state with a well-formed ROM; placing it
changes no element and no other row. Derived: it is about the model's own way to load a row, log entry 2. -/
def Obligations.PlacedWordRunsNext : Prop :=
  ∀ (s : State) (w : Nat), MachineInv s → w < 256 →
    step (s.withFetchWord 8 w) = exec (decode (BitVec.ofNat 8 w)) (s.withFetchWord 8 w).afterPulse ∧
    (∀ row : Nibble, row ≠ s.pc → (s.withFetchWord 8 w).rom.read row.toNat = s.rom.read row.toNat) ∧
    (s.withFetchWord 8 w).a = s.a ∧ (s.withFetchWord 8 w).b = s.b ∧ (s.withFetchWord 8 w).c = s.c ∧
    (s.withFetchWord 8 w).pc = s.pc ∧ (s.withFetchWord 8 w).cf = s.cf ∧ MachineInv (s.withFetchWord 8 w)

/-- A snapshot shows the pre-tick sample, the fetched opcode and that tick's signals: the decoder's six outputs for the
opcode and the flag, the multiplexer input that the select code names, and the carry and sum of the flag, that input and
the fetched immediate. The signals settle what a tick with `reset_n` = 1 writes: the flag the ALU carry, each element the
sum where its load-enable is 0. Derived: that the sample is the pre-tick one is the spec's decision D23 (R145), log entry
13; the flag as carry-in is D4 (log entry 6), the multiplexer's inputs are D6 (log entry 8), PC's load or count is D2 (log
entry 7). -/
def Obligations.SnapshotShowsWhatTheTickWrites : Prop :=
  ∀ (n : Nat) (s : State),
    let p := s.snapshot n
    (p.stepCount = n ∧ p.pc = s.pc ∧ p.outputPort = s.c ∧ p.a = s.a ∧ p.b = s.b ∧ p.cf = s.cf ∧
      p.opcode = opcodeOf (s.rom.read s.pc.toNat)) ∧
    (p.ctrl = controlOf p.opcode p.cf ∧
      [p.a, p.b, 0, 0][p.ctrl.selectA.toNat + 2 * p.ctrl.selectB.toNat]? = some p.sel ∧
      16 * p.aluOut.cout.toNat + p.aluOut.sum.toNat =
        p.cf.toNat + p.sel.toNat + (immOf (s.rom.read s.pc.toNat)).toNat) ∧
    ∃ t, tick runPulse s = .next t ∧ t.cf = p.aluOut.cout ∧
      t.a = (if p.ctrl.load0N = false then p.aluOut.sum else p.a) ∧
      t.b = (if p.ctrl.load1N = false then p.aluOut.sum else p.b) ∧
      t.c = (if p.ctrl.load2N = false then p.aluOut.sum else p.outputPort) ∧
      t.pc = (if p.ctrl.load3N = false then p.aluOut.sum else nextRow p.pc)

/-! ## The whole machine -/

/-- The machine wired gate by gate, which knows no instruction, and the machine that decodes and executes instructions take
the same tick, for every pulse and every state. Derived: it rests on R103, R108, R121 to R125, R130 and R137 to R144,
several of which are marked with the spec's decisions (log entries 6, 7, 8 and 12). -/
def Obligations.GateLevelCycleRefinesTheTick : Prop :=
  ∀ (p : Pulse) (s : State), tick p s = .next (cycle p s)

/-- The tick is the step function of R147 as the spec prints it, for every pulse and every state, and so is the machine
wired gate by gate. Derived: R147 is marked as the spec's own derivation. -/
def Obligations.TickIsTheSpecStepFunction : Prop :=
  ∀ (p : Pulse) (s : State), tick p s = .next (stepRule p s) ∧ cycle p s = stepRule p s

/-- Every number of steps from every state answers a next state: no fault, no refusal, no halt. Derived: R195 and R214 are
marked as the spec's own derivation. -/
def Obligations.EveryRunGoesOn : Prop := ∀ (n : Nat) (s : State), ∃ t, runSteps n s = .next t

/-- Over any run from any state, whatever the pulses, no ROM row changes (R43). -/
def Obligations.RomIsConstantOverEveryRun : Prop :=
  ∀ (n : Nat) (s t : State), runSteps n s = .next t → ∀ row : Nibble, t.rom.read row.toNat = s.rom.read row.toNat

/-- Register C is a sink: over any run, changing it beforehand changes nothing but C. Derived: R23 and R164 are marked with
the spec's decision D10 and as its own derivation. -/
def Obligations.RegisterCInfluencesNothing : Prop :=
  ∀ (n : Nat) (s : State) (x : Nibble), ∃ t t',
    runSteps n s = .next t ∧ runSteps n { s with c := x } = .next t' ∧ t' = { t with c := t'.c }

/-- Every step keeps the ROM in its canonical form of rows 0 to 15, from every state in which it is. Derived: the form is
the model's, log entry 1. -/
def Obligations.EveryStepKeepsTheInvariant : Prop := ∀ s t : State, MachineInv s → step s = .next t → MachineInv t

/-- Reset meets the invariant, and has the five elements at the values of R32, so that every ROM row reads as an unused
one and execution starts in row 0. Derived: the empty ROM at reset is the model's choice, log entry 1. -/
def Obligations.ResetMeetsTheInvariant : Prop :=
  MachineInv State.reset ∧ State.reset.a = 0 ∧ State.reset.b = 0 ∧ State.reset.c = 0 ∧ State.reset.pc = 0 ∧
  State.reset.cf = false ∧ (∀ row : Nibble, State.reset.rom.read row.toNat = 0x00#8) ∧ RunTick State.reset

/-! ## The assembler -/

/-- Each of the twelve accepted forms, in upper case with single spaces, with any immediate, assembles to the word of its
instruction, under every reading of the open points; a form with no immediate token stores 0000. Derived: R76 is marked as
general knowledge and the spec's decision D7 (log entry 9); log entries 15 and 18. -/
def Obligations.AssemblerFormsGiveTheirWords : Prop :=
  ∀ o : AsmOpen,
    (∀ im : Nibble,
      AssemblesTo o (['A', 'D', 'D', ' ', 'A', ' '] ++ digitsOf im) (.addAIm im) ∧
      AssemblesTo o (['A', 'D', 'D', ' ', 'B', ' '] ++ digitsOf im) (.addBIm im) ∧
      AssemblesTo o (['M', 'O', 'V', ' ', 'A', ' '] ++ digitsOf im) (.movAIm im) ∧
      AssemblesTo o (['M', 'O', 'V', ' ', 'B', ' '] ++ digitsOf im) (.movBIm im) ∧
      AssemblesTo o (['O', 'U', 'T', ' '] ++ digitsOf im) (.outIm im) ∧
      AssemblesTo o (['J', 'M', 'P', ' '] ++ digitsOf im) (.jmp im) ∧
      AssemblesTo o (['J', 'N', 'C', ' '] ++ digitsOf im) (.jnc im)) ∧
    AssemblesTo o ['M', 'O', 'V', ' ', 'A', ' ', 'B'] (.movAB 0) ∧
    AssemblesTo o ['M', 'O', 'V', ' ', 'B', ' ', 'A'] (.movBA 0) ∧
    AssemblesTo o ['I', 'N', ' ', 'A'] (.inA 0) ∧
    AssemblesTo o ['I', 'N', ' ', 'B'] (.inB 0) ∧
    AssemblesTo o ['O', 'U', 'T', ' ', 'B'] (.outB 0)

/-- Whatever line assembles, under any reading of the open points, gives a row of 8 columns that is the word of an
instruction in assembler form: never one of the four opcodes of R66, never a non-zero immediate in a register form.
Derived: R65 and R66 are marked with the spec's decisions D7 and D8 (log entries 9 and 10). -/
def Obligations.AssembledWordsAreAssemblerForms : Prop :=
  ∀ (o : AsmOpen) (k : Nat) (line : List Char) (row : List Bool), assembleLine o k line = .ok row →
    row.length = 8 ∧ (decode (wordOfRow row)).assemblerForm = true

/-- A line that does not have 2 or 3 tokens is a syntax error with its number; one that has is accepted or an operation
error with its number; each line that R76 names as refused is an operation error under every reading of the open points.
Derived: R76 is marked as general knowledge and the spec's decision D7 (log entry 9); that lines are numbered from 0,
and that a run of delimiters counts as one, is the model's choice, log entry 15. -/
def Obligations.LineErrorsByTokenCount : Prop :=
  (∀ (o : AsmOpen) (k : Nat) (line : List Char),
    if (tokens o line).length = 2 ∨ (tokens o line).length = 3 then
      (∃ row, assembleLine o k line = .ok row) ∨ assembleLine o k line = .error (.operationError k)
    else assembleLine o k line = .error (.syntaxError k)) ∧
  (∀ (o : AsmOpen) (k : Nat), assembleLine o k [] = .error (.syntaxError k)) ∧
  (∀ (o : AsmOpen) (k : Nat), ∀ line ∈
      [['M', 'O', 'V', ' ', 'A', ' ', 'C'], ['M', 'O', 'V', ' ', 'A', ' ', 'A'], ['A', 'D', 'D', ' ', 'A', ' ', 'B'],
        ['O', 'U', 'T', ' ', 'A'], ['I', 'N', ' ', '0', '0', '0', '1'], ['J', 'M', 'P', ' ', 'A']],
    assembleLine o k line = .error (.operationError k))

/-- A program assembles exactly when it has at most 16 lines and each line assembles; otherwise the error reported is one
that applies, and it is the capacity error where that is the only one. Derived: which of several errors is reported is
left open, and so is the line number that the capacity error carries (log entry 15). -/
def Obligations.ProgramAssemblesWholeOrNotAtAll : Prop :=
  ∀ (o : AsmOpen) (lines : List (List Char)),
    ((∃ image, assembleProgram o lines = .ok image) ↔
      lines.length ≤ 16 ∧ ∀ (k : Nat) (l : List Char), lines[k]? = some l → ∃ row, assembleLine o k l = .ok row) ∧
    (∀ e, assembleProgram o lines = .error e →
      (e = .capacityError (o.capacityLine lines) ∧ 16 < lines.length) ∨
        ∃ (k : Nat) (l : List Char), lines[k]? = some l ∧ assembleLine o k l = .error e)

/-- An assembled program's image has 16 rows: line `k`'s row in row `k` and all-zero rows after the last line; loaded into
the ROM, row `k` reads as the word of row `k` of the image, in the canonical form. Derived: R80 also calls the padding
rows NOP-equivalent, which 90_conflicts.md C8 overrules. -/
def Obligations.RomImageHoldsTheProgram : Prop :=
  ∀ (o : AsmOpen) (lines : List (List Char)) (image : List (List Bool)) (s : State),
    assembleProgram o lines = .ok image →
    image.length = 16 ∧
    (∀ (k : Nat) (l : List Char), lines[k]? = some l →
      ∃ row, assembleLine o k l = .ok row ∧ image[k]? = some row) ∧
    (∀ k : Nat, lines.length ≤ k → k < 16 → image[k]? = some (List.replicate 8 false)) ∧
    (∀ (k : Nat) (row : List Bool), image[k]? = some row → (s.load image).rom.read k = wordOfRow row) ∧
    MachineInv (s.load image)

/-- A line's tokens are what whitespace delimits: a space always delimits, no printable character other than it ever does (a
comma does not), an empty line has no token, an undelimited word is one token, and a delimiter ends the tokens on its left.
A line assembles exactly when its tokens are one of the twelve accepted forms, and then to that instruction's word.
Derived: R76 is marked as general knowledge and the spec's decision D7 (log entry 9); that a run of delimiters delimits as
one does, and that delimiters at a line's ends start no token, is the model's choice, log entry 15; which further characters
may count as whitespace and how case may be ignored are log entry 18. -/
def Obligations.LineAssemblesExactlyInAcceptedForms : Prop :=
  (∀ o : AsmOpen,
    o.separates ' ' = true ∧ (∀ ch : Char, 0x21 ≤ ch.toNat → ch.toNat ≤ 0x7E → o.separates ch = false) ∧
    tokens o [] = [] ∧
    (∀ w : List Char, w ≠ [] → (∀ ch ∈ w, o.separates ch = false) → tokens o w = [w]) ∧
    (∀ (l r : List Char) (ch : Char), o.separates ch = true → tokens o (l ++ ch :: r) = tokens o l ++ tokens o r)) ∧
  (∀ (o : AsmOpen) (k : Nat) (line : List Char) (row : List Bool),
    assembleLine o k line = .ok row ↔ ∃ i, AcceptedForm o (tokens o line) i ∧ row = rowOf (encode i))
end

