-- ==== Sys2Proof/Laws/Assembler.lean ====
section
/-! SUPPORT. Everything the assembler's readers of one token can answer, said once. -/

namespace Sys2Proof.Machine

/-- An immediate token is the four digits of the immediate it spells. -/
theorem immediateToken_some (t : Token) (x : AsmOperand) (h : immediateToken t = some x) :
    ∃ im : Nibble, t = digitsOf im ∧
      x = .imm (im.getLsbD 3) (im.getLsbD 2) (im.getLsbD 1) (im.getLsbD 0) := by
  have digit : ∀ {ch : Char} {b : Bool}, binaryDigit ch = some b → ch = if b then '1' else '0' := by
    intro ch b hb
    unfold binaryDigit at hb
    split at hb
    · cases hb; assumption
    · split at hb <;> cases hb; assumption
  unfold immediateToken at h
  split at h
  · simp only [Option.bind_eq_bind, Option.bind_eq_some_iff] at h
    obtain ⟨d3, h3, d2, h2, d1, h1, d0, h0, h⟩ := h
    cases h
    refine ⟨BitVec.ofBool d3 ++ BitVec.ofBool d2 ++ BitVec.ofBool d1 ++ BitVec.ofBool d0, ?_⟩
    rw [digit h3, digit h2, digit h1, digit h0]
    clear h3 h2 h1 h0
    revert d3 d2 d1 d0; decide
  · cases h

/-- The digits of an immediate are an immediate token. -/
theorem immediateToken_digitsOf (im : Nibble) :
    immediateToken (digitsOf im) =
      some (.imm (im.getLsbD 3) (im.getLsbD 2) (im.getLsbD 1) (im.getLsbD 0)) := by
  revert im; decide

/-- Everything an operand token can name. -/
theorem operandToken_cases (o : AsmOpen) (t : Token) (x : AsmOperand) (h : operandToken o t = some x) :
    (∃ im : Nibble, t = digitsOf im ∧
      x = .imm (im.getLsbD 3) (im.getLsbD 2) (im.getLsbD 1) (im.getLsbD 0)) ∨
    (x = .regA ∧ lettersOf o.registersAnyCase t = ['A']) ∨
    (x = .regB ∧ lettersOf o.registersAnyCase t = ['B']) := by
  unfold operandToken at h
  cases hi : immediateToken t with
  | some y =>
    rw [hi] at h
    cases h
    exact .inl (immediateToken_some t _ hi)
  | none =>
    simp only [hi] at h
    split at h
    · cases h; exact .inr (.inl ⟨rfl, ‹_›⟩)
    · split at h <;> cases h
      exact .inr (.inr ⟨rfl, ‹_›⟩)

/-- The letters of each mnemonic. -/
def Mnemonic.letters : Mnemonic → List Char
  | .mov => ['M', 'O', 'V']
  | .add => ['A', 'D', 'D']
  | .inp => ['I', 'N']
  | .out => ['O', 'U', 'T']
  | .jmp => ['J', 'M', 'P']
  | .jnc => ['J', 'N', 'C']

/-- A token names exactly the mnemonic whose letters it has. -/
theorem mnemonicToken_eq_some (o : AsmOpen) (t : Token) (m : Mnemonic) :
    mnemonicToken o t = some m ↔ lettersOf o.mnemonicsAnyCase t = m.letters := by
  unfold mnemonicToken
  generalize lettersOf o.mnemonicsAnyCase t = w
  constructor
  · intro h
    dsimp only at h
    repeat' split at h
    all_goals cases h
    all_goals assumption
  · rintro rfl
    cases m <;> decide

end Sys2Proof.Machine
end

