-- ==== Sys2Proof/Laws/State.lean ====
section
/-! SUPPORT. One lemma per field for each update of the state, so that no proof unfolds a record update. -/

namespace Sys2Proof.Machine

/-! The commit of step 6, reset inactive: the element that the destination names takes the sum, the counter counts
unless it loads, the flag takes the carry-out. -/

@[simp] theorem commit_a (d : Dest) (r : AluOut) (s : State) : (s.commit d r).a = if d = .a then r.sum else s.a := by
  cases d <;> rfl
@[simp] theorem commit_b (d : Dest) (r : AluOut) (s : State) : (s.commit d r).b = if d = .b then r.sum else s.b := by
  cases d <;> rfl
@[simp] theorem commit_c (d : Dest) (r : AluOut) (s : State) : (s.commit d r).c = if d = .c then r.sum else s.c := by
  cases d <;> rfl
@[simp] theorem commit_pc (d : Dest) (r : AluOut) (s : State) :
    (s.commit d r).pc = if d = .pc then r.sum else inc s.pc := by
  cases d <;> rfl
@[simp] theorem commit_cf (d : Dest) (r : AluOut) (s : State) : (s.commit d r).cf = r.cout := rfl
@[simp] theorem commit_rom (d : Dest) (r : AluOut) (s : State) : (s.commit d r).rom = s.rom := rfl
@[simp] theorem commit_mode (d : Dest) (r : AluOut) (s : State) : (s.commit d r).mode = s.mode := rfl
@[simp] theorem commit_pulses (d : Dest) (r : AluOut) (s : State) : (s.commit d r).pulses = s.pulses := rfl

/-! The reset of the five elements. -/

@[simp] theorem clear_a (s : State) : s.clear.a = 0 := rfl
@[simp] theorem clear_b (s : State) : s.clear.b = 0 := rfl
@[simp] theorem clear_c (s : State) : s.clear.c = 0 := rfl
@[simp] theorem clear_pc (s : State) : s.clear.pc = 0 := rfl
@[simp] theorem clear_cf (s : State) : s.clear.cf = false := rfl
@[simp] theorem clear_rom (s : State) : s.clear.rom = s.rom := rfl
@[simp] theorem clear_mode (s : State) : s.clear.mode = s.mode := rfl
@[simp] theorem clear_pulses (s : State) : s.clear.pulses = s.pulses := rfl

/-! Taking a pulse from the host's list. -/

@[simp] theorem afterPulse_a (s : State) : s.afterPulse.a = s.a := by unfold State.afterPulse; split <;> rfl
@[simp] theorem afterPulse_b (s : State) : s.afterPulse.b = s.b := by unfold State.afterPulse; split <;> rfl
@[simp] theorem afterPulse_c (s : State) : s.afterPulse.c = s.c := by unfold State.afterPulse; split <;> rfl
@[simp] theorem afterPulse_pc (s : State) : s.afterPulse.pc = s.pc := by unfold State.afterPulse; split <;> rfl
@[simp] theorem afterPulse_cf (s : State) : s.afterPulse.cf = s.cf := by unfold State.afterPulse; split <;> rfl
@[simp] theorem afterPulse_rom (s : State) : s.afterPulse.rom = s.rom := by unfold State.afterPulse; split <;> rfl
@[simp] theorem afterPulse_mode (s : State) : s.afterPulse.mode = s.mode := by unfold State.afterPulse; split <;> rfl
theorem afterPulse_pulses (s : State) :
    s.afterPulse.pulses = if s.mode = .manual then s.pulses.tail else s.pulses := by
  unfold State.afterPulse; split <;> simp_all

/-! Placing the next word, and loading an image. -/

@[simp] theorem withNextWord_a (s : State) (w : Word) : (s.withNextWord w).a = s.a := rfl
@[simp] theorem withNextWord_b (s : State) (w : Word) : (s.withNextWord w).b = s.b := rfl
@[simp] theorem withNextWord_c (s : State) (w : Word) : (s.withNextWord w).c = s.c := rfl
@[simp] theorem withNextWord_pc (s : State) (w : Word) : (s.withNextWord w).pc = s.pc := rfl
@[simp] theorem withNextWord_cf (s : State) (w : Word) : (s.withNextWord w).cf = s.cf := rfl
@[simp] theorem withNextWord_rom (s : State) (w : Word) : (s.withNextWord w).rom = s.rom.write s.pc w := rfl
theorem withNextWord_mode (s : State) (w : Word) :
    (s.withNextWord w).mode = if s.pulse = some runPulse then s.mode else .hz1 := rfl
@[simp] theorem withNextWord_pulses (s : State) (w : Word) : (s.withNextWord w).pulses = s.pulses := rfl

@[simp] theorem load_a (s : State) (m : List (List Bool)) : (s.load m).a = s.a := rfl
@[simp] theorem load_b (s : State) (m : List (List Bool)) : (s.load m).b = s.b := rfl
@[simp] theorem load_c (s : State) (m : List (List Bool)) : (s.load m).c = s.c := rfl
@[simp] theorem load_pc (s : State) (m : List (List Bool)) : (s.load m).pc = s.pc := rfl
@[simp] theorem load_cf (s : State) (m : List (List Bool)) : (s.load m).cf = s.cf := rfl
@[simp] theorem load_rom (s : State) (m : List (List Bool)) :
    (s.load m).rom = Memory.ofRows (m.map wordOfRow) := rfl
@[simp] theorem load_mode (s : State) (m : List (List Bool)) : (s.load m).mode = s.mode := rfl
@[simp] theorem load_pulses (s : State) (m : List (List Bool)) : (s.load m).pulses = s.pulses := rfl

end Sys2Proof.Machine
end

