-- ==== Sys2Proof/Laws/Exec.lean ====
section
/-! SUPPORT. Everything an instruction, a tick and a step can do, said once. -/

namespace Sys2Proof.Machine

/-- The first ALU operand that an instruction's opcode selects (30_encoding.md R64, column `sel`). -/
def source : Instr → Operand
  | .addAIm _ | .movBA _ => .regA
  | .movAB _ | .addBIm _ | .outBAlt _ | .outB _ | .jncB _ | .jmpB _ => .regB
  | .inA _ | .inB _ => .inputPort
  | .movAIm _ | .movBIm _ | .outImAlt _ | .outIm _ | .jnc _ | .jmp _ => .zero

/-- The element that takes the sum (30_encoding.md R64, column destination). -/
def dest (s : State) : Instr → Dest
  | .addAIm _ | .movAB _ | .inA _ | .movAIm _ => .a
  | .movBA _ | .addBIm _ | .inB _ | .movBIm _ => .b
  | .outBAlt _ | .outB _ | .outImAlt _ | .outIm _ => .c
  | .jncB _ | .jnc _ => s.jumpIfNoCarry
  | .jmpB _ | .jmp _ => .pc

/-- Everything an instruction can do: it commits the sum of the carry flag, its source and its immediate. -/
theorem exec_eq (i : Instr) (s : State) : exec i s = .next (s.commit (dest s i) (s.mainAlu (source i) i.im)) := by
  cases i <;> rfl

theorem tick_clock_low (p : Pulse) (s : State) (h : p.clock = false) : tick p s = .next s := by simp [tick, h]

theorem tick_reset (p : Pulse) (s : State) (h : p.clock = true) (h' : p.resetN = false) : tick p s = .next s.clear := by
  simp [tick, h, h']

theorem tick_run (s : State) : tick runPulse s = exec (decode s.fetch) s := rfl

theorem fetch_afterPulse (s : State) : s.afterPulse.fetch = s.fetch := by
  unfold State.afterPulse; split <;> rfl

/-- Everything a step can do: hold with no pulse or a pulse with `clock = 0`, clear the elements, or commit one
instruction's sum. -/
theorem step_cases (s t : State) (h : step s = .next t) :
    (s.pulse = none ∧ t = s) ∨
    (∃ p, s.pulse = some p ∧ p.clock = false ∧ t = s.afterPulse) ∨
    (∃ p, s.pulse = some p ∧ p.clock = true ∧ p.resetN = false ∧ t = s.afterPulse.clear) ∨
    (∃ p, s.pulse = some p ∧ p.clock = true ∧ p.resetN = true ∧
      ∃ d r, t = s.afterPulse.commit d r) := by
  unfold step nextTick at h
  cases hp : s.pulse with
  | none => rw [hp] at h; cases h; exact .inl ⟨rfl, rfl⟩
  | some p =>
    rw [hp] at h
    dsimp only at h
    unfold tick at h
    refine .inr ?_
    by_cases hc : p.clock = false
    · rw [if_pos hc] at h; cases h; exact .inl ⟨p, rfl, hc, rfl⟩
    · rw [if_neg hc] at h
      by_cases hr : p.resetN = false
      · rw [if_pos hr] at h; cases h; exact .inr (.inl ⟨p, rfl, by simpa using hc, hr, rfl⟩)
      · rw [if_neg hr, exec_eq] at h
        cases h
        exact .inr (.inr ⟨p, rfl, by simpa using hc, by simpa using hr, _, _, rfl⟩)

end Sys2Proof.Machine
end

