-- ==== Sys2Proof/Laws/Gates.lean ====
section
/-! SUPPORT. The gates as Boolean operations, and the ALU as addition of 4-bit vectors. -/

namespace Sys2Proof.Machine

@[simp] theorem gNot_eq (a : Bool) : gNot a = !a := by cases a <;> rfl
@[simp] theorem gAnd_eq (a b : Bool) : gAnd a b = (a && b) := by cases a <;> cases b <;> rfl
@[simp] theorem gOr_eq (a b : Bool) : gOr a b = (a || b) := by cases a <;> cases b <;> rfl
@[simp] theorem gXor_eq (a b : Bool) : gXor a b = (a ^^ b) := by cases a <;> cases b <;> rfl

theorem alu_bits :
    ∀ (cin : Bool) (a b : Nibble), alu cin a b =
      ⟨decide (16 ≤ cin.toNat + a.toNat + b.toNat), a + b + BitVec.ofNat 4 cin.toNat⟩ := by
  decide +kernel

/-- The ALU's sum as a sum of vectors. -/
theorem alu_sum (cin : Bool) (a b : Nibble) : (alu cin a b).sum = a + b + BitVec.ofNat 4 cin.toNat := by
  rw [alu_bits]

/-- The ALU carries exactly when the total reaches 16. -/
theorem alu_cout (cin : Bool) (a b : Nibble) : (alu cin a b).cout = decide (16 ≤ cin.toNat + a.toNat + b.toNat) := by
  rw [alu_bits]

/-- The counter's increment as a sum of vectors. -/
theorem inc_eq (q : Nibble) : inc q = q + 1 := by
  simp [inc, alu_sum]

end Sys2Proof.Machine
end

