-- ==== Sys2Proof/Laws/Memory.lean ====
section
/-! SUPPORT. The ROM as a list of rows: reading after loading a row, and every operation keeps the canonical form. -/

namespace Sys2Proof.Machine

/-- A canonical form from row `n'` on is one from any row below. -/
theorem wfFrom_weaken (m : Memory) {n n' : Nat} (hn : n ≤ n') (h : Memory.wfFrom n' m = true) :
    Memory.wfFrom n m = true := by
  cases m with
  | nil => rfl
  | cons head m =>
    simp only [Memory.wfFrom, Bool.and_eq_true, decide_eq_true_eq] at h ⊢
    exact ⟨⟨⟨by omega, h.1.1.2⟩, h.1.2⟩, h.2⟩

/-- A row below every listed row reads as an unused row. -/
theorem read_below (m : Memory) {n j : Nat} (h : Memory.wfFrom n m = true) (hj : j < n) :
    m.read j = Config.unusedRow := by
  induction m generalizing n with
  | nil => rfl
  | cons head m ih =>
    simp only [Memory.wfFrom, Bool.and_eq_true, decide_eq_true_eq] at h
    have hne : head.1 ≠ j := by omega
    simp only [Memory.read, hne, if_false]
    exact ih h.2 (by omega)

theorem read_writeAt (k : Nat) (w : Word) (m : Memory) (lo : Nat) (h : Memory.wfFrom lo m = true) (i : Nat) :
    Memory.read (Memory.writeAt k w m) i = if k = i then w else m.read i := by
  induction m generalizing lo with
  | nil => by_cases hw : w = Config.unusedRow <;> by_cases hi : k = i <;> simp [Memory.writeAt, Memory.read, hw, hi]
  | cons head m ih =>
    obtain ⟨k', w'⟩ := head
    simp only [Memory.wfFrom, Bool.and_eq_true, decide_eq_true_eq] at h
    unfold Memory.writeAt
    by_cases h1 : k < k'
    · have hne : k' ≠ k := by omega
      have hunl : Memory.read m k = Config.unusedRow := read_below m h.2 (by omega)
      by_cases hi : k = i
      · subst hi
        by_cases hw : w = Config.unusedRow <;> simp [h1, hw, hne, hunl, Memory.read]
      · by_cases hw : w = Config.unusedRow <;> simp [h1, hw, hi, Memory.read]
    · by_cases h2 : k = k'
      · subst h2
        have hunl : Memory.read m k = Config.unusedRow := read_below m h.2 (by omega)
        by_cases hw : w = Config.unusedRow <;> by_cases hi : k = i <;> simp_all [Memory.read]
      · have hne : k' ≠ k := fun e => h2 e.symm
        simp only [h1, h2, if_false, Memory.read]
        by_cases hi : k = i
        · subst hi
          simp [hne, ih _ h.2]
        · simp [hi, ih _ h.2]

theorem wfFrom_writeAt (k : Nat) (w : Word) (m : Memory) (lo : Nat) (hk : lo ≤ k) (hr : k < Config.romRows)
    (h : Memory.wfFrom lo m = true) : Memory.wfFrom lo (Memory.writeAt k w m) = true := by
  induction m generalizing lo with
  | nil => by_cases hw : w = Config.unusedRow <;> simp [Memory.writeAt, Memory.wfFrom, hw, hk, hr]
  | cons head m ih =>
    obtain ⟨k', w'⟩ := head
    simp only [Memory.wfFrom, Bool.and_eq_true, decide_eq_true_eq] at h
    obtain ⟨⟨⟨hlo, hrow⟩, hw'⟩, hm⟩ := h
    unfold Memory.writeAt
    by_cases h1 : k < k'
    · have hk' : k + 1 ≤ k' := h1
      by_cases hw : w = Config.unusedRow <;>
        simp [h1, hw, Memory.wfFrom, hlo, hrow, hw', hm, hk, hr, hk']
    · by_cases h2 : k = k'
      · subst h2
        by_cases hw : w = Config.unusedRow
        · simp only [lt_irrefl, if_false, if_true, hw]
          exact wfFrom_weaken m (by omega) hm
        · simp [hw, Memory.wfFrom, hk, hr, hm]
      · simp only [h1, h2, if_false, Memory.wfFrom, Bool.and_eq_true, decide_eq_true_eq]
        exact ⟨⟨⟨hlo, hrow⟩, hw'⟩, ih _ (by omega) hm⟩

/-- Loading a row keeps the canonical form. -/
theorem write_wf (m : Memory) (row : Nibble) (w : Word) (h : m.wf = true) : (m.write row w).wf = true :=
  wfFrom_writeAt _ _ _ _ (Nat.zero_le _) row.isLt h

/-- A row reads as what was loaded into it, and every other row as before. -/
theorem read_write (m : Memory) (row other : Nibble) (w : Word) (h : m.wf = true) :
    (m.write row w).read other.toNat = if row = other then w else m.read other.toNat := by
  rw [Memory.write, read_writeAt _ _ _ 0 h]
  by_cases e : row = other
  · simp [e]
  · have : row.toNat ≠ other.toNat := fun e' => e (BitVec.eq_of_toNat_eq e')
    simp [e, this]

theorem wfFrom_ofRowsFrom (ws : List Word) (k : Nat) (h : k + ws.length ≤ Config.romRows) :
    Memory.wfFrom k (Memory.ofRowsFrom k ws) = true := by
  induction ws generalizing k with
  | nil => rfl
  | cons w ws ih =>
    simp only [List.length_cons] at h
    have hrest := ih (k + 1) (by omega)
    by_cases hw : w = Config.unusedRow
    · simpa [Memory.ofRowsFrom, hw] using wfFrom_weaken _ (Nat.le_succ k) hrest
    · simp only [Memory.ofRowsFrom, hw, if_false, Memory.wfFrom, Bool.and_eq_true, decide_eq_true_eq]
      exact ⟨⟨⟨le_refl k, by omega⟩, hw⟩, hrest⟩

/-- An image's rows are in the canonical form. -/
theorem ofRows_wf (ws : List Word) : (Memory.ofRows ws).wf = true :=
  wfFrom_ofRowsFrom _ 0 (by simp)

end Sys2Proof.Machine
end

