-- ==== Sys2Proof/Laws/PerInstr.lean ====
section
/-! SUPPORT. Statements about every instruction, one lemma per constructor. -/

namespace Sys2Proof.Laws

/-- The two fields of any encoded word read back as the fields it was built from (30_encoding.md R61). -/
theorem fields_wordOf (op im : Nibble) : opcodeOf (wordOf op im) = op ∧ immOf (wordOf op im) = im := by
  revert op im
  decide

/-- An instruction's word holds its opcode in bits 7 to 4 and its immediate in bits 3 to 0. -/
def EncodedFields.Statement (i : Instr) : Prop := opcodeOf (encode i) = i.opcode ∧ immOf (encode i) = i.im

theorem EncodedFields.addAIm (im : Nibble) : EncodedFields.Statement (.addAIm im) := fields_wordOf _ _
theorem EncodedFields.movAB (im : Nibble) : EncodedFields.Statement (.movAB im) := fields_wordOf _ _
theorem EncodedFields.inA (im : Nibble) : EncodedFields.Statement (.inA im) := fields_wordOf _ _
theorem EncodedFields.movAIm (im : Nibble) : EncodedFields.Statement (.movAIm im) := fields_wordOf _ _
theorem EncodedFields.movBA (im : Nibble) : EncodedFields.Statement (.movBA im) := fields_wordOf _ _
theorem EncodedFields.addBIm (im : Nibble) : EncodedFields.Statement (.addBIm im) := fields_wordOf _ _
theorem EncodedFields.inB (im : Nibble) : EncodedFields.Statement (.inB im) := fields_wordOf _ _
theorem EncodedFields.movBIm (im : Nibble) : EncodedFields.Statement (.movBIm im) := fields_wordOf _ _
theorem EncodedFields.outBAlt (im : Nibble) : EncodedFields.Statement (.outBAlt im) := fields_wordOf _ _
theorem EncodedFields.outB (im : Nibble) : EncodedFields.Statement (.outB im) := fields_wordOf _ _
theorem EncodedFields.outImAlt (im : Nibble) : EncodedFields.Statement (.outImAlt im) := fields_wordOf _ _
theorem EncodedFields.outIm (im : Nibble) : EncodedFields.Statement (.outIm im) := fields_wordOf _ _
theorem EncodedFields.jncB (im : Nibble) : EncodedFields.Statement (.jncB im) := fields_wordOf _ _
theorem EncodedFields.jmpB (im : Nibble) : EncodedFields.Statement (.jmpB im) := fields_wordOf _ _
theorem EncodedFields.jnc (im : Nibble) : EncodedFields.Statement (.jnc im) := fields_wordOf _ _
theorem EncodedFields.jmp (im : Nibble) : EncodedFields.Statement (.jmp im) := fields_wordOf _ _

end Sys2Proof.Laws
end

