-- ==== Sys2Proof/Tests/Slice0.lean ====
section
/-! SUPPORT. The model's own tests. Expected results are the spec's: the worked examples and vectors of
spec/95_test_vectors.md (S, V and K numbers in the comments) and the encodings of spec/30_encoding.md. -/

namespace Sys2Proof.Tests

open Machine

/-- A state `(A, B, C, PC, CF)` with the word in row PC, the clock in its automatic mode. -/
def stateAt (a b c pc : Nibble) (cf : Bool) (w : Word) : State :=
  { a := a, b := b, c := c, pc := pc, cf := cf, rom := Memory.write [] pc w, mode := .hz1, pulses := [] }

/-- The same in manual mode, with the host's next pulses. -/
def manualAt (a b c pc : Nibble) (cf : Bool) (w : Word) (ps : List Pulse) : State :=
  { stateAt a b c pc cf w with mode := .manual, pulses := ps }

/-- The five elements of a next state. -/
def elements : Host.Outcome State Fault Refusal → Option (Nibble × Nibble × Nibble × Nibble × Bool)
  | .next s => some (s.a, s.b, s.c, s.pc, s.cf)
  | .fault _ | .refused _ => none

/-! ## Checks that refuse -/

theorem test_wf_refuses_row_16 : Memory.wf [(16, 0x31)] = false := by decide
theorem test_wf_refuses_falling_rows : Memory.wf [(3, 0x31), (2, 0x02)] = false := by decide
theorem test_wf_refuses_repeated_row : Memory.wf [(3, 0x31), (3, 0x02)] = false := by decide
theorem test_wf_refuses_listed_unused_row : Memory.wf [(3, 0x00)] = false := by decide
theorem test_wf_accepts_first_and_last_row : Memory.wf [(0, 0x31), (15, 0xFF)] = true := by decide
theorem test_form_refuses_unassembled_opcodes :
    [Instr.outBAlt 0, .outImAlt 0, .jncB 0, .jmpB 0].map Instr.assemblerForm = [false, false, false, false] := by decide
theorem test_form_refuses_immediate_in_register_form :
    [Instr.movAB 5, .inA 1, .movBA 8, .inB 15, .outB 3].map Instr.assemblerForm =
      [false, false, false, false, false] := by decide

/-! ## Decoding: one word per opcode, written out from the field positions and the opcode map of R61 and R64 -/

theorem test_decode_addAIm : decode 0b00000011#8 = .addAIm 0b0011#4 := by decide
theorem test_decode_movAB : decode 0b00010101#8 = .movAB 0b0101#4 := by decide
theorem test_decode_inA : decode 0b00100000#8 = .inA 0b0000#4 := by decide
theorem test_decode_movAIm : decode 0b00111010#8 = .movAIm 0b1010#4 := by decide
theorem test_decode_movBA : decode 0b01000001#8 = .movBA 0b0001#4 := by decide
theorem test_decode_addBIm : decode 0b01011000#8 = .addBIm 0b1000#4 := by decide
theorem test_decode_inB : decode 0b01100110#8 = .inB 0b0110#4 := by decide
theorem test_decode_movBIm : decode 0b01111111#8 = .movBIm 0b1111#4 := by decide
theorem test_decode_outBAlt : decode 0b10000111#8 = .outBAlt 0b0111#4 := by decide
theorem test_decode_outB : decode 0b10010011#8 = .outB 0b0011#4 := by decide
theorem test_decode_outImAlt : decode 0b10101001#8 = .outImAlt 0b1001#4 := by decide
theorem test_decode_outIm : decode 0b10110010#8 = .outIm 0b0010#4 := by decide
theorem test_decode_jncB : decode 0b11000011#8 = .jncB 0b0011#4 := by decide
theorem test_decode_jmpB : decode 0b11010010#8 = .jmpB 0b0010#4 := by decide
theorem test_decode_jnc : decode 0b11101110#8 = .jnc 0b1110#4 := by decide
theorem test_decode_jmp : decode 0b11110100#8 = .jmp 0b0100#4 := by decide
/-- S8: `MOV A 1010` is 0x3A, `MOV A B` is 0x10, `JMP 0000` is 0xF0. -/
theorem test_encode_worked_examples :
    encode (.movAIm 0b1010) = 0x3A ∧ encode (.movAB 0) = 0x10 ∧ encode (.jmp 0) = 0xF0 := by decide
theorem test_decodeTableWord : decodeTableWord 8 0xC2 = some (.jncB 0b0010) := by decide

/-! ## Blocks -/

/-- V-ALU. -/
theorem test_alu_corner_cases :
    alu true 0b1111 0b1111 = ⟨true, 0b1111⟩ ∧ alu true 0b0111 0b1000 = ⟨true, 0b0000⟩ ∧
    alu false 0b1001 0b1001 = ⟨true, 0b0010⟩ ∧ alu true 0b0000 0b0000 = ⟨false, 0b0001⟩ := by decide
/-- R96: position 0 of the source's layout is the carry-out. -/
theorem test_alu_positions : (alu false 0b1001 0b1001).positions = [true, false, true, false, false] := by decide
/-- V-INC. -/
theorem test_inc : inc 0b0111 = 0b1000 ∧ inc 0b1110 = 0b1111 ∧ inc 0b1111 = 0b0000 := by decide
/-- S4, and the worked example of R100. -/
theorem test_resolve : resolve 0b1010 = 0b0000010000000000 ∧ resolve 0b1111 = 0b1000000000000000 := by decide
/-- S5. -/
theorem test_mux :
    mux false false 1 2 4 8 = 1 ∧ mux true false 1 2 4 8 = 2 ∧ mux false true 1 2 4 8 = 4 ∧ mux true true 1 2 4 8 = 8 := by
  decide
/-- V-DEC: opcode 1110 with both flag values. -/
theorem test_decoder_jnc : (controlOf 0b1110 false).load3N = false ∧ (controlOf 0b1110 true).load3N = true := by decide
/-- S7: a load of 1001, then two counts. -/
theorem test_counter :
    counterNext true true 0 (counterNext true true 0 (counterNext false true 0b1001 0b0001)) = 0b1011 := by decide

/-! ## One step of each opcode: the V rows named -/

theorem test_addAIm_V2 : elements (step (stateAt 0b0101 0b0011 0b1001 0b1010 true 0x04)) =
    some (0b1010, 0b0011, 0b1001, 0b1011, false) := by decide
theorem test_addAIm_V3 : elements (step (stateAt 0b1110 0b1101 0b1001 0b0111 false 0x03)) =
    some (0b0001, 0b1101, 0b1001, 0b1000, true) := by decide
theorem test_movAB_V6 : elements (step (stateAt 0b0101 0b0011 0b1001 0b1010 true 0x14)) =
    some (0b1000, 0b0011, 0b1001, 0b1011, false) := by decide
theorem test_movAB_V7 : elements (step (stateAt 0b1110 0b1101 0b1001 0b0111 false 0x13)) =
    some (0b0000, 0b1101, 0b1001, 0b1000, true) := by decide
theorem test_inA_V10 : elements (step (stateAt 0b0101 0b0011 0b1001 0b1010 true 0x24)) =
    some (0b0101, 0b0011, 0b1001, 0b1011, false) := by decide
theorem test_inA_V12 : elements (step (stateAt 0b1110 0b1101 0b1001 0b0111 true 0x2F)) =
    some (0b0000, 0b1101, 0b1001, 0b1000, true) := by decide
theorem test_movAIm_V14 : elements (step (stateAt 0b0101 0b0011 0b1001 0b1010 true 0x34)) =
    some (0b0101, 0b0011, 0b1001, 0b1011, false) := by decide
theorem test_movAIm_V16 : elements (step (stateAt 0b1110 0b1101 0b1001 0b0111 true 0x3F)) =
    some (0b0000, 0b1101, 0b1001, 0b1000, true) := by decide
theorem test_movBA_V18 : elements (step (stateAt 0b0101 0b0011 0b1001 0b1010 true 0x44)) =
    some (0b0101, 0b1010, 0b1001, 0b1011, false) := by decide
theorem test_movBA_V19 : elements (step (stateAt 0b1110 0b1101 0b1001 0b0111 false 0x43)) =
    some (0b1110, 0b0001, 0b1001, 0b1000, true) := by decide
theorem test_addBIm_V22 : elements (step (stateAt 0b0101 0b0011 0b1001 0b1010 true 0x54)) =
    some (0b0101, 0b1000, 0b1001, 0b1011, false) := by decide
theorem test_addBIm_V23 : elements (step (stateAt 0b1110 0b1101 0b1001 0b0111 false 0x53)) =
    some (0b1110, 0b0000, 0b1001, 0b1000, true) := by decide
theorem test_inB_V26 : elements (step (stateAt 0b0101 0b0011 0b1001 0b1010 true 0x64)) =
    some (0b0101, 0b0101, 0b1001, 0b1011, false) := by decide
theorem test_inB_V28 : elements (step (stateAt 0b1110 0b1101 0b1001 0b0111 true 0x6F)) =
    some (0b1110, 0b0000, 0b1001, 0b1000, true) := by decide
theorem test_movBIm_V30 : elements (step (stateAt 0b0101 0b0011 0b1001 0b1010 true 0x74)) =
    some (0b0101, 0b0101, 0b1001, 0b1011, false) := by decide
theorem test_movBIm_V32 : elements (step (stateAt 0b1110 0b1101 0b1001 0b0111 true 0x7F)) =
    some (0b1110, 0b0000, 0b1001, 0b1000, true) := by decide
theorem test_outBAlt_V34 : elements (step (stateAt 0b0101 0b0011 0b1001 0b1010 true 0x84)) =
    some (0b0101, 0b0011, 0b1000, 0b1011, false) := by decide
theorem test_outBAlt_V35 : elements (step (stateAt 0b1110 0b1101 0b1001 0b0111 false 0x83)) =
    some (0b1110, 0b1101, 0b0000, 0b1000, true) := by decide
theorem test_outB_V38 : elements (step (stateAt 0b0101 0b0011 0b1001 0b1010 true 0x94)) =
    some (0b0101, 0b0011, 0b1000, 0b1011, false) := by decide
theorem test_outB_V39 : elements (step (stateAt 0b1110 0b1101 0b1001 0b0111 false 0x93)) =
    some (0b1110, 0b1101, 0b0000, 0b1000, true) := by decide
theorem test_outImAlt_V42 : elements (step (stateAt 0b0101 0b0011 0b1001 0b1010 true 0xA4)) =
    some (0b0101, 0b0011, 0b0101, 0b1011, false) := by decide
theorem test_outImAlt_V44 : elements (step (stateAt 0b1110 0b1101 0b1001 0b0111 true 0xAF)) =
    some (0b1110, 0b1101, 0b0000, 0b1000, true) := by decide
theorem test_outIm_V46 : elements (step (stateAt 0b0101 0b0011 0b1001 0b1010 true 0xB4)) =
    some (0b0101, 0b0011, 0b0101, 0b1011, false) := by decide
theorem test_outIm_V48 : elements (step (stateAt 0b1110 0b1101 0b1001 0b0111 true 0xBF)) =
    some (0b1110, 0b1101, 0b0000, 0b1000, true) := by decide
theorem test_jncB_V50 : elements (step (stateAt 0b0101 0b0011 0b1001 0b1010 true 0xC4)) =
    some (0b0101, 0b0011, 0b1001, 0b1011, false) := by decide
theorem test_jncB_V51 : elements (step (stateAt 0b1110 0b1101 0b1001 0b0111 false 0xC3)) =
    some (0b1110, 0b1101, 0b1001, 0b0000, true) := by decide
theorem test_jmpB_V54 : elements (step (stateAt 0b0101 0b0011 0b1001 0b1010 true 0xD4)) =
    some (0b0101, 0b0011, 0b1001, 0b1000, false) := by decide
theorem test_jmpB_V55 : elements (step (stateAt 0b1110 0b1101 0b1001 0b0111 false 0xD3)) =
    some (0b1110, 0b1101, 0b1001, 0b0000, true) := by decide
theorem test_jnc_V58 : elements (step (stateAt 0b0101 0b0011 0b1001 0b1010 true 0xE4)) =
    some (0b0101, 0b0011, 0b1001, 0b1011, false) := by decide
theorem test_jnc_V59 : elements (step (stateAt 0b1110 0b1101 0b1001 0b0111 false 0xE3)) =
    some (0b1110, 0b1101, 0b1001, 0b0011, false) := by decide
theorem test_jmp_V62 : elements (step (stateAt 0b0101 0b0011 0b1001 0b1010 true 0xF4)) =
    some (0b0101, 0b0011, 0b1001, 0b0101, false) := by decide
theorem test_jmp_V64 : elements (step (stateAt 0b1110 0b1101 0b1001 0b0111 true 0xFF)) =
    some (0b1110, 0b1101, 0b1001, 0b0000, true) := by decide

/-! ## Corner cases of one tick: the K rows named -/

theorem test_zero_word_increments_K2 :
    elements (step (stateAt 0b0111 0 0 0b0011 true 0x00)) = some (0b1000, 0, 0, 0b0100, false) := by decide
theorem test_row_wraps_K4 : elements (step (stateAt 0 0 0 0b1111 false 0x00)) = some (0, 0, 0, 0b0000, false) := by decide
theorem test_self_jump_escapes_K7 :
    elements (step (stateAt 0 0 0 0b0101 true 0xF5)) = some (0, 0, 0, 0b0110, false) := by decide
theorem test_untaken_jnc_keeps_carry_K8 :
    elements (step (stateAt 0 0 0 0b0101 true 0xEF)) = some (0, 0, 0, 0b0110, true) := by decide
theorem test_reset_beats_load_K9 :
    elements (step (manualAt 0b0011 0b0110 0b1100 0b1001 true 0x3F [resetPulse])) = some (0, 0, 0, 0, false) := by decide
theorem test_reset_beats_jump_K10 :
    elements (step (manualAt 0b0011 0b0110 0b1100 0b1001 true 0xF5 [resetPulse])) = some (0, 0, 0, 0, false) := by decide
theorem test_clock_low_K11 :
    elements (step (manualAt 0b0011 0b0110 0b1100 0b1001 true 0xF5 [⟨false, false⟩])) =
      some (0b0011, 0b0110, 0b1100, 0b1001, true) := by decide
theorem test_register_form_adds_immediate_K12 :
    elements (step (stateAt 0 0b0101 0 0b0001 false 0x15)) = some (0b1010, 0b0101, 0, 0b0010, false) := by decide
/-- P10, tick 4: the signals and the snapshot of a `JNC` not taken. -/
theorem test_snapshot_P10_tick_4 :
    (stateAt 0b0000 0b0001 0b0000 0b0011 true 0xE2).snapshot 4 =
      { stepCount := 4, pc := 0b0011, outputPort := 0, a := 0, b := 0b0001, cf := true, opcode := 0b1110
        ctrl := ⟨true, true, true, true, true, true⟩, sel := 0, aluOut := ⟨false, 0b0011⟩ } := by decide
theorem test_withFetchWord_runs : elements (step (State.reset.withFetchWord 8 0x3A)) = some (0b1010, 0, 0, 1, false) := by
  decide

/-! ## The assembler: S8 -/

/-- One reading of the open points: every whitespace character counts, case as written, a final newline ends the last
line, a capacity error names the first line too many, first error. -/
def plainAsm : AsmOpen :=
  { countsAsSpace := fun _ => true, mnemonicsAnyCase := false, registersAnyCase := false
    finalNewlineEndsLine := true, capacityLine := fun _ => 16, report := fun _ => 0 }

/-- The reading that allows most: every whitespace character counts, and case never matters. -/
def anyCaseAsm : AsmOpen := { plainAsm with mnemonicsAnyCase := true, registersAnyCase := true }

/-- A tab separates under this reading, a comma under none (R72). -/
theorem test_assemble_comma_is_no_separator :
    assembleLine anyCaseAsm 0 ['m', 'o', 'V', '\t', 'a', ' ', 'B'] =
        .ok [false, false, false, false, true, false, false, false] ∧
      assembleLine anyCaseAsm 0 ['M', 'O', 'V', ' ', 'A', ',', 'B'] = .error (.operationError 0) ∧
      assembleLine anyCaseAsm 0 ['M', 'O', 'V', ',', 'A', ',', 'B'] = .error (.syntaxError 0) := by decide
/-- The model's choice, log entry 15: a run of spaces delimits as one does, and leading and trailing spaces start no token. -/
theorem test_assemble_space_runs :
    assembleLine plainAsm 0 [' ', 'I', 'N', ' ', ' ', 'B', ' '] = assembleLine plainAsm 0 ['I', 'N', ' ', 'B'] := by decide
/-- Case does not turn another name into a register, and where it matters a lower-case name is refused (R73). -/
theorem test_assemble_only_A_and_B :
    assembleLine anyCaseAsm 3 ['M', 'O', 'V', ' ', 'A', ' ', 'c'] = .error (.operationError 3) ∧
      assembleLine anyCaseAsm 3 ['I', 'N', ' ', 'X'] = .error (.operationError 3) ∧
      assembleLine plainAsm 3 ['I', 'N', ' ', 'a'] = .error (.operationError 3) := by decide
theorem test_assemble_movAIm :
    assembleLine plainAsm 0 ['M', 'O', 'V', ' ', 'A', ' ', '1', '0', '1', '0'] =
      .ok [false, true, false, true, true, true, false, false] := by decide
theorem test_assemble_movAC :
    assembleLine plainAsm 7 ['M', 'O', 'V', ' ', 'A', ' ', 'C'] = .error (.operationError 7) := by decide
theorem test_assemble_empty_line :
    assemble plainAsm ['I', 'N', ' ', 'A', '\n', '\n', 'I', 'N', ' ', 'B'] = .error (.syntaxError 1) := by decide
theorem test_assemble_17_lines :
    assembleProgram plainAsm (List.replicate 17 ['I', 'N', ' ', 'A']) = .error (.capacityError 16) := by decide
/-- A ROM holding only `JMP 0000` (S9): row 0 is F0, the fifteen others 00. -/
theorem test_boot_jmp : State.boot plainAsm ['J', 'M', 'P', ' ', '0', '0', '0', '0', '\n'] =
    .ok { State.reset with rom := [(0, 0xF0)] } := by decide

/-! ## Witnesses: states and operands that meet the hypotheses of the statements, clause by clause at the boundaries -/

/-- A state with every element non-zero, to witness from. -/
def busy (cf : Bool) : State := stateAt 0b0101 0b0011 0b1001 0b1111 cf 0x04

theorem witness_AddressResolverIsOneHot : 0 < 16 ∧ 15 < 16 ∧ (resolve 15).getLsbD 15 = true := by decide
theorem witness_WordFieldsSitAtTheirBits : 0 < 4 ∧ 3 < 4 ∧ (opcodeOf 0x80).getLsbD 3 = true := by decide
theorem witness_IncrementIsModulo16AndOffTheFlag :
    (Instr.outIm 3).opcode.toNat < 12 ∧
      exec (.outIm 3) (busy true) = .next { busy true with c := 4, cf := false, pc := 0 } :=
  ⟨by decide, rfl⟩
theorem witness_RegisterLoadsHoldsResets :
    registerNext false true 11 3 = 11 ∧ registerNext true true 11 3 = 3 ∧ registerNext false false 11 3 = 0 := by decide
theorem witness_JncResult_taken : (busy false).cf = false := rfl
theorem witness_JncResult_not_taken : (busy true).cf = true := rfl
theorem witness_MovAddInFrame_first : (Instr.addAIm 3).opcode.toNat < 4 ∧
    exec (.addAIm 3) (busy false) = .next { busy false with a := 8, cf := false, pc := 0 } := ⟨by decide, rfl⟩
theorem witness_MovAddInFrame_last_of_A : (Instr.movAIm 3).opcode.toNat < 4 ∧
    exec (.movAIm 3) (busy false) = .next { busy false with a := 3, cf := false, pc := 0 } := ⟨by decide, rfl⟩
theorem witness_MovAddInFrame_first_of_B : ¬ (Instr.movBA 3).opcode.toNat < 4 ∧ (Instr.movBA 3).opcode.toNat < 8 ∧
    exec (.movBA 3) (busy false) = .next { busy false with b := 8, cf := false, pc := 0 } :=
  ⟨by decide, by decide, rfl⟩
theorem witness_MovAddInFrame_last : ¬ (Instr.movBIm 3).opcode.toNat < 4 ∧ (Instr.movBIm 3).opcode.toNat < 8 ∧
    exec (.movBIm 3) (busy false) = .next { busy false with b := 3, cf := false, pc := 0 } :=
  ⟨by decide, by decide, rfl⟩
theorem witness_OutFrame_first : 8 ≤ (Instr.outBAlt 3).opcode.toNat ∧ (Instr.outBAlt 3).opcode.toNat < 12 ∧
    exec (.outBAlt 3) (busy false) = .next { busy false with c := 6, cf := false, pc := 0 } :=
  ⟨by decide, by decide, rfl⟩
theorem witness_OutFrame_last : 8 ≤ (Instr.outIm 3).opcode.toNat ∧ (Instr.outIm 3).opcode.toNat < 12 ∧
    exec (.outIm 3) (busy false) = .next { busy false with c := 3, cf := false, pc := 0 } :=
  ⟨by decide, by decide, rfl⟩
theorem witness_JumpFrame_first_not_taken : 12 ≤ (Instr.jncB 3).opcode.toNat ∧
    (controlOf (Instr.jncB 3).opcode (busy true).cf).load3N = true ∧
    exec (.jncB 3) (busy true) = .next { busy true with cf := false, pc := 0 } := ⟨by decide, by decide, rfl⟩
theorem witness_PcIsNeverAnOperand_taken : (controlOf (Instr.jmp 3).opcode (busy true).cf).load3N = false ∧
    exec (.jmp 3) { busy true with pc := 7 } = .next { busy true with cf := false, pc := 4 } := ⟨by decide, rfl⟩
theorem witness_PcIsNeverAnOperand_counts : ¬ (controlOf (Instr.jnc 3).opcode (busy true).cf).load3N = false ∧
    exec (.jnc 3) { busy true with pc := 7 } = .next { busy true with cf := false, pc := 8 } := ⟨by decide, rfl⟩
theorem witness_JumpFrame_last : 12 ≤ (Instr.jmp 3).opcode.toNat ∧
    exec (.jmp 3) (busy false) = .next { busy false with cf := false, pc := 3 } := ⟨by decide, rfl⟩
theorem witness_AllZeroWord : (busy false).cf = false ∧ (busy true).cf = true := ⟨rfl, rfl⟩
theorem witness_JncAfterUntakenJncIsTaken : (busy true).cf = true ∧ (0b1110#4 : Nibble) ≠ 0b1111#4 := by decide
theorem witness_HeldResetThenRowZero :
    (manualAt 5 3 9 10 true 0x04 [resetPulse, runPulse]).mode = .manual ∧
      (manualAt 5 3 9 10 true 0x04 [resetPulse, runPulse]).pulses =
        List.replicate (0 + 1) resetPulse ++ runPulse :: [] := ⟨rfl, rfl⟩
theorem witness_StepRunsTheDecodedInstruction_automatic :
    RunTick (busy true) ∧ decode ((busy true).rom.read (busy true).pc.toNat) = .addAIm 4 ∧
      (Instr.addAIm 4).wellFormed = true := ⟨rfl, by decide, rfl⟩
theorem witness_StepRunsTheDecodedInstruction_manual :
    RunTick (manualAt 5 3 9 15 true 0xF4 [runPulse]) ∧
      decode ((manualAt 5 3 9 15 true 0xF4 [runPulse]).rom.read 15) = .jmp 4 := ⟨rfl, by decide⟩
theorem witness_NoAssertedClockNoChange :
    (manualAt 5 3 9 10 true 0x04 [⟨false, false⟩]).pulses = ⟨false, false⟩ :: [] ∧
      (manualAt 5 3 9 10 true 0x04 []).mode = .manual ∧ (manualAt 5 3 9 10 true 0x04 []).pulses = [] := ⟨rfl, rfl, rfl⟩
theorem witness_AutomaticModesNeverReset : (busy true).mode ≠ .manual ∧
    runSteps 1 (busy false) = .next { busy false with a := 9, cf := false, pc := 0 } := ⟨by decide, rfl⟩
theorem witness_PlacedWordRunsNext : MachineInv State.reset ∧ 0 < 256 ∧ 255 < 256 := by
  refine ⟨rfl, ?_, ?_⟩ <;> decide
theorem witness_RomIsConstantOverEveryRun :
    runSteps 1 (busy false) = .next { busy false with a := 9, cf := false, pc := 0 } := rfl
theorem witness_EveryStepKeepsTheInvariant : MachineInv (busy false) ∧
    step (busy false) = .next { busy false with a := 9, cf := false, pc := 0 } := ⟨rfl, rfl⟩
theorem witness_AssembledWordsAreAssemblerForms :
    assembleLine plainAsm 0 ['O', 'U', 'T', ' ', 'B'] =
      .ok [false, false, false, false, true, false, false, true] := by decide
theorem witness_LineErrorsByTokenCount :
    (tokens plainAsm ['I', 'N']).length = 1 ∧ (tokens plainAsm ['I', 'N', ' ', 'A']).length = 2 ∧
      (tokens plainAsm ['M', 'O', 'V', ' ', 'A', ' ', 'B']).length = 3 ∧
      (tokens plainAsm ['M', ' ', 'A', ' ', 'B', ' ', 'A']).length = 4 := by decide
theorem witness_LineAssemblesExactlyInAcceptedForms :
    (0x21 ≤ ','.toNat ∧ ','.toNat ≤ 0x7E ∧ plainAsm.separates ',' = false) ∧
      (0x21 ≤ '!'.toNat ∧ '~'.toNat ≤ 0x7E ∧ plainAsm.separates '~' = false) ∧
      plainAsm.separates '\t' = true ∧ (plainAsm.separates 'I' = false ∧ plainAsm.separates 'N' = false) ∧
      assembleLine plainAsm 0 ['I', 'N', ' ', 'A'] = .ok (rowOf (encode (.inA 0))) ∧
      AcceptedForm plainAsm (tokens plainAsm ['I', 'N', ' ', 'A']) (.inA 0) := by
  refine ⟨by decide, by decide, by decide, by decide, by decide, .inA _ _ (by decide) (by decide)⟩
theorem witness_ProgramAssemblesWholeOrNotAtAll :
    assembleProgram plainAsm [['I', 'N']] = .error (.syntaxError 0) ∧
      (List.replicate 16 ['I', 'N', ' ', 'A']).length ≤ 16 ∧
      assembleLine plainAsm 15 ['I', 'N', ' ', 'A'] =
        .ok [false, false, false, false, false, true, false, false] := by decide
theorem witness_RomImageHoldsTheProgram :
    assembleProgram plainAsm [['J', 'M', 'P', ' ', '0', '0', '0', '0']] =
      .ok ([false, false, false, false, true, true, true, true] :: List.replicate 15 zeroRow) := by decide

end Sys2Proof.Tests
end

section
/-! SUPPORT. Runs of the machine, and the ROM over a run (20_memory.md R43). -/

namespace Sys2Proof

open Machine

/-! What a run is made of, and the induction over it. -/

@[simp] theorem runSteps_zero (s : State) : runSteps 0 s = .next s := rfl

/-- A run that goes on for `n + 1` steps is a step that goes on, then a run of `n` steps that does. -/
theorem runSteps_succ_eq_next {n : Nat} {s t : State} :
    runSteps (n + 1) s = .next t ↔ ∃ u, step s = .next u ∧ runSteps n u = .next t := by
  cases hs : step s <;> simp [runSteps, hs]

/-- What every step keeps, every run keeps. -/
theorem runSteps_preserves {P : State → Prop} (hstep : ∀ s t, P s → step s = .next t → P t) {n : Nat} {s t : State}
    (hs : P s) (h : runSteps n s = .next t) : P t := by
  induction n generalizing s with
  | zero =>
    cases h
    exact hs
  | succ n ih =>
    obtain ⟨u, hsu, hut⟩ := runSteps_succ_eq_next.mp h
    exact ih (hstep s u hs hsu) hut

/-! No update that a step makes reaches the ROM. -/

/-- A step leaves the ROM as it is, whether it holds, takes a pulse with `clock = 0`, resets or runs an instruction. -/
theorem step_rom {s t : State} (h : step s = .next t) : t.rom = s.rom := by
  obtain ⟨-, rfl⟩ | ⟨_, -, -, rfl⟩ | ⟨_, -, -, -, rfl⟩ | ⟨_, -, -, -, d, r, rfl⟩ := step_cases s t h
  · rfl
  · exact afterPulse_rom s
  · rw [clear_rom, afterPulse_rom]
  · rw [commit_rom, afterPulse_rom]

/-- A run leaves the whole ROM as it is, not only what its rows read as. -/
theorem runSteps_rom {n : Nat} {s t : State} (h : runSteps n s = .next t) : t.rom = s.rom :=
  runSteps_preserves (P := fun u => u.rom = s.rom) (fun _ _ hu hv => (step_rom hv).trans hu) rfl h

/-- Settles O51: every row is read from the ROM, and no step of a run changes the ROM. -/
theorem romIsConstantOverEveryRun : Obligations.RomIsConstantOverEveryRun := by
  intro n s t h row
  rw [runSteps_rom h]

end Sys2Proof
end


section
/-! SUPPORT. The two fields of an instruction word: where their bits sit and what the word is as an integer
(30_encoding.md R61). -/

namespace Sys2Proof

/-! Bit positions: the opcode field starts at word bit 4, the immediate field at word bit 0. -/

theorem opcodeOf_getLsbD (w : Word) {i : Nat} (hi : i < 4) : (opcodeOf w).getLsbD i = w.getLsbD (4 + i) := by
  simp [opcodeOf, hi]

theorem immOf_getLsbD (w : Word) {i : Nat} (hi : i < 4) : (immOf w).getLsbD i = w.getLsbD i := by
  simp [immOf, hi]

/-! The integer form, said once of the concatenation that joins two fields. -/

theorem wordOf_toNat (op im : Nibble) : (wordOf op im).toNat = 16 * op.toNat + im.toNat := by
  have him : im.toNat < 2 ^ 4 := im.isLt
  rw [wordOf, BitVec.toNat_append, ← Nat.shiftLeft_add_eq_or_of_lt him, Nat.shiftLeft_eq, Nat.mul_comm]

/-- A word is made of its two fields and of nothing else. -/
theorem wordOf_opcodeOf_immOf (w : Word) : wordOf (opcodeOf w) (immOf w) = w :=
  BitVec.extractLsb'_append_extractLsb'_eq_extractLsb' rfl |>.trans BitVec.extractLsb'_eq_self

theorem toNat_eq_fields (w : Word) : w.toNat = 16 * (opcodeOf w).toNat + (immOf w).toNat := by
  rw [← wordOf_toNat, wordOf_opcodeOf_immOf]

/-- Settles O14: the bits of the two fields are read off the word, and both integer forms are that of the concatenation,
of a word's own fields and of an instruction's opcode and immediate. -/
theorem wordFieldsSitAtTheirBits : Obligations.WordFieldsSitAtTheirBits :=
  ⟨fun w => ⟨toNat_eq_fields w, fun _ hi => ⟨opcodeOf_getLsbD w hi, immOf_getLsbD w hi⟩⟩,
    fun i => wordOf_toNat i.opcode i.im⟩

end Sys2Proof
end

section
/-! SUPPORT. The gates of two or more inputs, as folds of the two-input gates (40_combinational_blocks.md R90 to R92). -/

namespace Sys2Proof

open Machine

/-! Regrouping: what the left fold of an associative gate has in common for AND, OR and XOR. -/

/-- The left fold of an associative gate, grouped from the right instead. -/
theorem foldl_cons_eq_of_assoc {op : Bool → Bool → Bool} (assoc : ∀ x y z, op (op x y) z = op x (op y z))
    (x y z : Bool) (zs : List Bool) : (z :: zs).foldl op (op x y) = op x (zs.foldl op (op y z)) := by
  have : Std.Associative op := ⟨assoc⟩
  rw [List.foldl_cons, assoc, List.foldl_assoc]

theorem gAndN_cons (x y z : Bool) (zs : List Bool) : gAndN x y (z :: zs) = gAnd x (gAndN y z zs) :=
  foldl_cons_eq_of_assoc (by simp [Bool.and_assoc]) x y z zs

theorem gOrN_cons (x y z : Bool) (zs : List Bool) : gOrN x y (z :: zs) = gOr x (gOrN y z zs) :=
  foldl_cons_eq_of_assoc (by simp [Bool.or_assoc]) x y z zs

theorem gXorN_cons (x y z : Bool) (zs : List Bool) : gXorN x y (z :: zs) = gXor x (gXorN y z zs) :=
  foldl_cons_eq_of_assoc (by simp) x y z zs

/-! The two-input gates, and NAND and NOR, in terms of the folds. -/

@[simp] theorem gAndN_nil (x y : Bool) : gAndN x y [] = gAnd x y := rfl
@[simp] theorem gOrN_nil (x y : Bool) : gOrN x y [] = gOr x y := rfl
@[simp] theorem gXorN_nil (x y : Bool) : gXorN x y [] = gXor x y := rfl
@[simp] theorem gNandN_eq (x y : Bool) (zs : List Bool) : gNandN x y zs = gNot (gAndN x y zs) := rfl
@[simp] theorem gNorN_eq (x y : Bool) (zs : List Bool) : gNorN x y zs = gNot (gOrN x y zs) := rfl

/-! XOR as parity. -/

/-- One more input changes the parity of a list exactly when it is 1. -/
theorem xor_count_odd (x : Bool) (l : List Bool) :
    (x ^^ decide (l.count true % 2 = 1)) = decide ((x :: l).count true % 2 = 1) := by
  cases x with
  | false => simp
  | true =>
    rw [List.count_cons_self, Bool.true_xor, ← decide_not, decide_eq_decide]
    omega

theorem gXorN_eq_parity (x y : Bool) (zs : List Bool) :
    gXorN x y zs = decide ((x :: y :: zs).count true % 2 = 1) := by
  induction zs generalizing x y with
  | nil => rw [gXorN_nil, gXor_eq, ← xor_count_odd]; cases y <;> rfl
  | cons z zs ih => rw [gXorN_cons, gXor_eq, ih, xor_count_odd]

/-- Settles O2: a fold over one more input at the end is a fold step; from the right it regroups by associativity; and XOR
is the parity by induction over the inputs, taking them from the left by that regrouping. -/
theorem variadicGatesFold : Obligations.VariadicGatesFold := by
  refine ⟨fun x y => ⟨gAndN_nil x y, gOrN_nil x y, gXorN_nil x y⟩, fun x y zs z => ⟨?_, ?_, ?_⟩,
    fun x y zs => ⟨gNandN_eq x y zs, gNorN_eq x y zs⟩, fun x y z => ?_,
    fun x y z zs => ⟨gAndN_cons x y z zs, gOrN_cons x y z zs, gXorN_cons x y z zs⟩, gXorN_eq_parity⟩
  · exact List.foldl_concat ..
  · exact List.foldl_concat ..
  · exact List.foldl_concat ..
  · simp [gAndN_cons]

/-- Settles O1: the tables are the gates' rows, and the derived gates are defined by their formulas. -/
theorem gatesMatchTruthTables : Obligations.GatesMatchTruthTables := by
  refine ⟨?not, ?and, ?or, ?nand, ?nor, ?xor, fun _ _ => rfl, fun _ _ => rfl, fun _ _ => rfl⟩
  all_goals decide

end Sys2Proof
end

section
/-! SUPPORT. The adder cells and the ripple-carry ALU as additions of numbers (40_combinational_blocks.md R93 to R98). -/

namespace Sys2Proof

open Machine

theorem halfAdder_adds (a b : Bool) :
    2 * (halfAdder a b).carry.toNat + (halfAdder a b).sum.toNat = a.toNat + b.toNat := by
  cases a <;> cases b <;> rfl

theorem fullAdder_adds (cin a b : Bool) :
    2 * (fullAdder cin a b).carry.toNat + (fullAdder cin a b).sum.toNat = cin.toNat + a.toNat + b.toNat := by
  cases cin <;> cases a <;> cases b <;> rfl

/-- Two adder cells with the same total have the same outputs. -/
theorem carrySum_eq_of_total {r t : CarrySum}
    (h : 2 * r.carry.toNat + r.sum.toNat = 2 * t.carry.toNat + t.sum.toNat) : r = t := by
  obtain ⟨rc, rs⟩ := r
  obtain ⟨tc, ts⟩ := t
  have hrs : rs.toNat < 2 := rs.toNat_lt
  have hts : ts.toNat < 2 := ts.toNat_lt
  have toNat_inj : Function.Injective Bool.toNat := Function.LeftInverse.injective Bool.ofNat_toNat
  dsimp only at h
  rw [CarrySum.mk.injEq]
  exact ⟨toNat_inj (by omega), toNat_inj (by omega)⟩

/-- Settles O3: the composition is the definition, the totals are those of the cells, and a full-adder's inputs may change
places because its outputs are fixed by the total. -/
theorem adderCellsAddBits : Obligations.AdderCellsAddBits := by
  refine ⟨fun a b => ⟨rfl, rfl, halfAdder_adds a b⟩,
    fun cin a b => ⟨rfl, rfl, fullAdder_adds cin a b, carrySum_eq_of_total ?_, carrySum_eq_of_total ?_⟩⟩
  · rw [fullAdder_adds, fullAdder_adds]; omega
  · rw [fullAdder_adds, fullAdder_adds]; omega

theorem alu_sum_toNat (cin : Bool) (a b : Nibble) :
    (alu cin a b).sum.toNat = (cin.toNat + a.toNat + b.toNat) % 16 := by
  rw [alu_sum, BitVec.toNat_add, BitVec.toNat_add, BitVec.toNat_ofNat]
  omega

theorem alu_cout_toNat (cin : Bool) (a b : Nibble) :
    (alu cin a b).cout.toNat = (cin.toNat + a.toNat + b.toNat) / 16 := by
  have hcin : cin.toNat < 2 := cin.toNat_lt
  rw [alu_cout, Bool.toNat, Bool.cond_decide]
  split <;> omega

/-- Settles O4: the sum is the remainder and the carry-out the quotient, which together are the total. -/
theorem aluAddsExactly : Obligations.AluAddsExactly := by
  intro cin a b
  refine ⟨?_, alu_sum_toNat cin a b, alu_cout_toNat cin a b⟩
  rw [alu_sum_toNat, alu_cout_toNat, Nat.div_add_mod]

end Sys2Proof
end

section
/-! SUPPORT. The address resolver, the multiplexer and the instruction decoder: what each answers, said once
(40_combinational_blocks.md R100 to R108). -/

namespace Sys2Proof

open Machine

/-! A 4-bit vector and its bits. -/

theorem nibble_toNat_eq_bits : ∀ q : Nibble,
    q.toNat = (q.getLsbD 0).toNat + 2 * (q.getLsbD 1).toNat + 4 * (q.getLsbD 2).toNat + 8 * (q.getLsbD 3).toNat := by
  decide

theorem nibbleOfBits_getLsbD : ∀ q : Nibble,
    nibbleOfBits (q.getLsbD 0) (q.getLsbD 1) (q.getLsbD 2) (q.getLsbD 3) = q := by
  decide

/-! The address resolver. -/

theorem resolve_eq (addr : Nibble) : resolve addr = 1#16 <<< addr.toNat := by
  rw [resolve, ← nibble_toNat_eq_bits]

theorem resolve_getLsbD (addr : Nibble) (i : Nat) :
    (resolve addr).getLsbD i = decide (i = addr.toNat) := by
  have haddr : addr.toNat < 16 := addr.isLt
  rw [resolve_eq, ← BitVec.twoPow_eq, BitVec.getLsbD_twoPow, decide_eq_true haddr, Bool.true_and]
  exact decide_eq_decide.mpr eq_comm

/-- Settles O5: the resolver's one line is that of the address's value, and the value is the weighted sum of the bits. -/
theorem addressResolverIsOneHot : Obligations.AddressResolverIsOneHot := by
  intro addr i _
  rw [← nibble_toNat_eq_bits, resolve_getLsbD, decide_eq_true_iff]
  exact ⟨Iff.rfl, Iff.rfl⟩

/-! The multiplexer: at each code one of the four AND terms passes its input and the others are 0. -/

theorem muxBit_eq (a b c0 c1 c2 c3 : Bool) :
    muxBit a b c0 c1 c2 c3 = bif b then (bif a then c3 else c2) else (bif a then c1 else c0) := by
  cases a <;> cases b <;> simp [muxBit, gAndN_cons, gOrN_cons]

theorem mux_eq (a b : Bool) (c0 c1 c2 c3 : Nibble) :
    mux a b c0 c1 c2 c3 = bif b then (bif a then c3 else c2) else (bif a then c1 else c0) := by
  simp only [mux, muxBit_eq]
  cases a <;> cases b <;> exact nibbleOfBits_getLsbD _

/-- Settles O7: each code's case of `mux_eq`. -/
theorem multiplexerSelectsByCode : Obligations.MultiplexerSelectsByCode := by
  intro a b c0 c1 c2 c3
  refine ⟨mux_eq .., mux_eq .., mux_eq .., mux_eq .., ?_, ?_⟩
  · rw [mux_eq]
    cases a <;> cases b <;> rfl
  · cases a <;> cases b <;> rfl

/-! The instruction decoder: the condition under which each active-low load-enable is asserted. -/

theorem load0N_eq_false (op0 op1 op2 op3 ncf : Bool) :
    (decoderOutputs op0 op1 op2 op3 ncf).load0N = false ↔ op3 = false ∧ op2 = false := by
  simp [decoderOutputs, and_comm]

theorem load1N_eq_false (op0 op1 op2 op3 ncf : Bool) :
    (decoderOutputs op0 op1 op2 op3 ncf).load1N = false ↔ op3 = false ∧ op2 = true := by
  simp [decoderOutputs, and_comm]

theorem load2N_eq_false (op0 op1 op2 op3 ncf : Bool) :
    (decoderOutputs op0 op1 op2 op3 ncf).load2N = false ↔ op3 = true ∧ op2 = false := by
  simp [decoderOutputs, and_comm]

theorem load3N_eq_false (op0 op1 op2 op3 ncf : Bool) :
    (decoderOutputs op0 op1 op2 op3 ncf).load3N = false ↔ (op3 = true ∧ op2 = true) ∧ (op0 = true ∨ ncf = true) := by
  cases op0 <;> simp [decoderOutputs, gAndN_cons, and_comm, and_assoc]

/-- Settles O8: the six formulas are the definition, and each load-enable is read off its own. -/
theorem decoderFollowsFormulas : Obligations.DecoderFollowsFormulas := by
  intro op0 op1 op2 op3 cf
  refine ⟨rfl, load0N_eq_false .., load1N_eq_false .., load2N_eq_false .., ?_⟩
  rw [load3N_eq_false, Bool.not_eq_true']

end Sys2Proof
end

section
/-! SUPPORT. The register's transition: one equation for each of reset, load and hold (41_sequential_and_cycle.md R121). -/

namespace Sys2Proof

open Machine

@[simp] theorem registerNext_reset (loadN : Bool) (d q : Nibble) : registerNext loadN false d q = 0 := rfl
@[simp] theorem registerNext_load (d q : Nibble) : registerNext false true d q = d := rfl
@[simp] theorem registerNext_hold (d q : Nibble) : registerNext true true d q = q := rfl

/-- Settles O10: the three cases are the three equations, and the sequence rewrites by one of them at each tick. -/
theorem registerLoadsHoldsResets : Obligations.RegisterLoadsHoldsResets := by
  refine ⟨fun loadN resetN d q => ⟨?reset, ?load, ?hold⟩, fun v q d2 d3 d4 loadN => ?sequence⟩
  case reset =>
    rintro rfl
    exact registerNext_reset loadN d q
  case load =>
    rintro rfl rfl
    exact registerNext_load d q
  case hold =>
    rintro rfl rfl
    exact registerNext_hold d q
  case sequence =>
    simp only [registerNext_load, registerNext_hold, registerNext_reset]

end Sys2Proof
end

section
/-! SUPPORT. The reset tick (70_reset_and_hazards.md R201). -/

namespace Sys2Proof

open Machine

@[simp] theorem clear_out (s : State) : s.clear.out = 0 := clear_c s

theorem tick_resetPulse (s : State) : tick resetPulse s = .next s.clear := tick_reset resetPulse s rfl rfl

/-- Settles O40: the tick answers the cleared state, which by its definition is the old one but for the five elements,
and the output port shows its register C. -/
theorem resetTickClearsTheFiveElements : Obligations.ResetTickClearsTheFiveElements := by
  intro s
  have all_else_kept : s.clear = { s with a := 0, b := 0, c := 0, pc := 0, cf := false } := rfl
  exact ⟨s.clear, tick_resetPulse s, clear_out s, all_else_kept⟩

end Sys2Proof
end

section
/-! SUPPORT. Decode and encode as maps between an instruction and the two fields of its word (30_encoding.md R60 to R68). -/

namespace Sys2Proof

open Machine

/-! The fields of a word that is built from an opcode and an immediate. -/

@[simp] theorem opcodeOf_wordOf (op im : Nibble) : opcodeOf (wordOf op im) = op := (Laws.fields_wordOf op im).1

@[simp] theorem immOf_wordOf (op im : Nibble) : immOf (wordOf op im) = im := (Laws.fields_wordOf op im).2

theorem opBit_eq_opcodeOf (w : Word) {i : Nat} (hi : i < 4) : opBit w i = (opcodeOf w).getLsbD i :=
  (opcodeOf_getLsbD w hi).symm

/-- The opcode field as its four bits, the ones that `decode` looks at. -/
theorem opcodeOf_eq_opBits (w : Word) :
    opcodeOf w = nibbleOfBits (opBit w 0) (opBit w 1) (opBit w 2) (opBit w 3) := by
  simp only [opBit_eq_opcodeOf, Nat.reduceLT, nibbleOfBits_getLsbD]

/-! What `decode` keeps of a word: its two fields, and so all of it. -/

theorem decode_opcode (w : Word) : (decode w).opcode = opcodeOf w := by
  rw [opcodeOf_eq_opBits]
  unfold decode
  split <;> simp only [*] <;> rfl

theorem decode_im (w : Word) : (decode w).im = immOf w := by
  unfold decode
  split <;> rfl

theorem encode_decode (w : Word) : encode (decode w) = w := by
  rw [encode, decode_opcode, decode_im, wordOf_opcodeOf_immOf]

/-- The word of an instruction decodes to it: its opcode's bits pick the instruction's own row of the opcode map. -/
theorem decode_encode (i : Instr) : decode (encode i) = i := by
  have him : immOf (encode i) = i.im := immOf_wordOf i.opcode i.im
  have hop : ∀ k, k < 4 → opBit (encode i) k = i.opcode.getLsbD k := fun k hk => by
    rw [opBit_eq_opcodeOf _ hk, encode, opcodeOf_wordOf]
  unfold decode
  rw [hop 0 (by decide), hop 1 (by decide), hop 2 (by decide), hop 3 (by decide), him]
  cases i <;> simp [Instr.opcode, Instr.im]

/-- Settles O16: `decode` reads off the two fields that `encode` joins. -/
theorem decodeAndEncodeAreInverse : Obligations.DecodeAndEncodeAreInverse :=
  ⟨decode_encode, encode_decode⟩

/-- Settles O15: each pattern of the opcode map is the encoding of its instruction, which decodes to it; the four words
are such patterns written out. -/
theorem opcodeMapDecodes : Obligations.OpcodeMapDecodes := by
  refine ⟨⟨decode_encode (.movAIm 0b1010), decode_encode (.movAB 0), decode_encode (.jmp 0), decode_encode (.addAIm 0)⟩,
    fun im => ?_⟩
  exact ⟨decode_encode (.addAIm im), decode_encode (.movAB im), decode_encode (.inA im), decode_encode (.movAIm im),
    decode_encode (.movBA im), decode_encode (.addBIm im), decode_encode (.inB im), decode_encode (.movBIm im),
    decode_encode (.outBAlt im), decode_encode (.outB im), decode_encode (.outImAlt im), decode_encode (.outIm im),
    decode_encode (.jncB im), decode_encode (.jmpB im), decode_encode (.jnc im), decode_encode (.jmp im)⟩

end Sys2Proof
end

section
/-! SUPPORT. What an instruction leaves, in the words of the spec: the total of its tick, its remainder and its quotient by
16 (41_sequential_and_cycle.md R147), one equation per destination of the sum. -/

namespace Sys2Proof

open Machine

/-! The remainder and the quotient of a total. -/

theorem sumOf_toNat_eq (q : Nibble) : sumOf q.toNat = q := by
  rw [sumOf, Nat.mod_eq_of_lt q.isLt, BitVec.ofNat_toNat, BitVec.setWidth_eq]

theorem carryOf_toNat_eq_false (q : Nibble) : carryOf q.toNat = false := by
  have hq : q.toNat < 16 := q.isLt
  rw [carryOf, Nat.div_eq_of_lt hq]
  rfl

theorem sumOf_succ_ne (q : Nibble) : sumOf (q.toNat + 1) ≠ q := by
  revert q; decide

theorem carryOf_succ (q : Nibble) : carryOf (q.toNat + 1) = decide (q = 0b1111#4) := by
  revert q; decide

/-- The sum of the carry flag and one value is that value exactly when the flag is 0. -/
theorem sumOf_cf_add_eq_self_iff (cf : Bool) (q : Nibble) : sumOf (cf.toNat + q.toNat) = q ↔ cf = false := by
  cases cf with
  | false => simp [sumOf_toNat_eq]
  | true => simpa [Nat.add_comm 1] using sumOf_succ_ne q

/-! The total with one operand 0000. -/

theorem total_zero_left (s : State) (im : Nibble) : total s 0 im = s.cf.toNat + im.toNat := rfl

theorem total_zero_right (s : State) (q : Nibble) : total s q 0 = s.cf.toNat + q.toNat := rfl

/-! The ALU and the incrementer in these words. -/

theorem alu_eq_sumOf_carryOf (cin : Bool) (a b : Nibble) :
    alu cin a b = ⟨carryOf (cin.toNat + a.toNat + b.toNat), sumOf (cin.toNat + a.toNat + b.toNat)⟩ := by
  have ha : a.toNat < 16 := a.isLt
  have hb : b.toNat < 16 := b.isLt
  have hcin : cin.toNat < 2 := cin.toNat_lt
  have hsum : (alu cin a b).sum = sumOf (cin.toNat + a.toNat + b.toNat) := by
    apply BitVec.eq_of_toNat_eq
    rw [alu_sum_toNat, sumOf, BitVec.toNat_ofNat, Nat.mod_mod]
  have hcout : (alu cin a b).cout = carryOf (cin.toNat + a.toNat + b.toNat) := by
    rw [alu_cout, carryOf, decide_eq_decide]
    omega
  rw [← hsum, ← hcout]

theorem mainAlu_eq (s : State) (o : Operand) (im : Nibble) :
    s.mainAlu o im = ⟨carryOf (total s (s.operand o) im), sumOf (total s (s.operand o) im)⟩ :=
  alu_eq_sumOf_carryOf s.cf (s.operand o) im

theorem inc_toNat (q : Nibble) : (inc q).toNat = (q.toNat + 1) % 16 := by
  rw [inc, alu_sum_toNat]
  exact congrArg (· % 16) (by simp)

theorem inc_eq_nextRow (q : Nibble) : inc q = nextRow q := by
  apply BitVec.eq_of_toNat_eq
  rw [inc_toNat, nextRow, BitVec.toNat_ofNat, Nat.mod_mod]

theorem inc_ne_self (q : Nibble) : inc q ≠ q := by
  revert q; decide

/-! What an instruction leaves, by the element that takes the sum. -/

/-- The total of an instruction's tick (R147). -/
def totalOf (i : Instr) (s : State) : Nat := total s (s.operand (source i)) i.im

section ByDestination

variable {i : Instr} {s : State}

/-- Every instruction commits the remainder and the quotient of its total. -/
theorem exec_eq_commit_totalOf :
    exec i s = .next (s.commit (dest s i) ⟨carryOf (totalOf i s), sumOf (totalOf i s)⟩) := by
  rw [exec_eq, mainAlu_eq, totalOf]

theorem exec_of_dest_a (h : dest s i = .a) :
    exec i s = .next { s with
      a := sumOf (totalOf i s), cf := carryOf (totalOf i s), pc := nextRow s.pc } := by
  rw [exec_eq_commit_totalOf, h, ← inc_eq_nextRow]
  rfl

theorem exec_of_dest_b (h : dest s i = .b) :
    exec i s = .next { s with
      b := sumOf (totalOf i s), cf := carryOf (totalOf i s), pc := nextRow s.pc } := by
  rw [exec_eq_commit_totalOf, h, ← inc_eq_nextRow]
  rfl

theorem exec_of_dest_c (h : dest s i = .c) :
    exec i s = .next { s with
      c := sumOf (totalOf i s), cf := carryOf (totalOf i s), pc := nextRow s.pc } := by
  rw [exec_eq_commit_totalOf, h, ← inc_eq_nextRow]
  rfl

theorem exec_of_dest_pc (h : dest s i = .pc) :
    exec i s = .next { s with pc := sumOf (totalOf i s), cf := carryOf (totalOf i s) } := by
  rw [exec_eq_commit_totalOf, h]
  rfl

theorem exec_of_dest_none (h : dest s i = .none) :
    exec i s = .next { s with pc := nextRow s.pc, cf := carryOf (totalOf i s) } := by
  rw [exec_eq_commit_totalOf, h, ← inc_eq_nextRow]
  rfl

end ByDestination

/-! The conditional jumps' destination. -/

theorem jumpIfNoCarry_of_clear {s : State} (h : s.cf = false) : s.jumpIfNoCarry = .pc := if_pos h

theorem jumpIfNoCarry_of_set {s : State} (h : s.cf = true) : s.jumpIfNoCarry = .none := if_neg (by simp [h])

/-! Opcodes 0000 to 0111 (42_mov_add_in.md R150 to R157). -/

/-- Settles O17: A takes the sum of CF, A and the immediate. -/
theorem addAImResult : Obligations.AddAImResult := fun _ _ => exec_of_dest_a rfl

/-- Settles O18: A takes the sum of CF, B and the immediate. -/
theorem movABResult : Obligations.MovABResult := fun _ _ => exec_of_dest_a rfl

/-- Settles O19: the input port reads 0000. -/
theorem inAResult : Obligations.InAResult := fun _ _ => exec_of_dest_a rfl

/-- Settles O20: A takes the sum of CF, 0000 and the immediate. -/
theorem movAImResult : Obligations.MovAImResult := fun _ _ => exec_of_dest_a rfl

/-- Settles O21: B takes the sum of CF, A and the immediate. -/
theorem movBAResult : Obligations.MovBAResult := fun _ _ => exec_of_dest_b rfl

/-- Settles O22: B takes the sum of CF, B and the immediate. -/
theorem addBImResult : Obligations.AddBImResult := fun _ _ => exec_of_dest_b rfl

/-- Settles O23: the input port reads 0000. -/
theorem inBResult : Obligations.InBResult := fun _ _ => exec_of_dest_b rfl

/-- Settles O24: B takes the sum of CF, 0000 and the immediate. -/
theorem movBImResult : Obligations.MovBImResult := fun _ _ => exec_of_dest_b rfl

/-! Opcodes 1000 to 1011 (43_out.md R160 to R163). -/

/-- Settles O25: C takes the sum of CF, B and the immediate. -/
theorem outBAltResult : Obligations.OutBAltResult := fun _ _ => exec_of_dest_c rfl

/-- Settles O26: C takes the sum of CF, B and the immediate, as for opcode 1000. -/
theorem outBResult : Obligations.OutBResult := fun _ _ => exec_of_dest_c rfl

/-- Settles O27: the first operand is the multiplexer's constant, not the input port. -/
theorem outImAltResult : Obligations.OutImAltResult := fun _ _ => exec_of_dest_c rfl

/-- Settles O28: C takes the sum of CF, 0000 and the immediate, as for opcode 1010. -/
theorem outImResult : Obligations.OutImResult := fun _ _ => exec_of_dest_c rfl

/-! Opcodes 1100 to 1111 (44_jumps.md R170 to R173). -/

/-- Settles O29: the flag decides the destination, and where it is 0 it adds nothing to the target. -/
theorem jncBResult : Obligations.JncBResult := by
  intro im s
  by_cases hcf : s.cf = false
  · have htotal : total s s.b im = s.b.toNat + im.toNat := by simp [total, hcf]
    rw [if_pos hcf, ← htotal]
    exact exec_of_dest_pc (i := .jncB im) (jumpIfNoCarry_of_clear hcf)
  · rw [if_neg hcf]
    exact exec_of_dest_none (i := .jncB im) (jumpIfNoCarry_of_set (Bool.eq_true_of_not_eq_false hcf))

/-- Settles O30: PC takes the sum of CF, B and the immediate whatever the flag was. -/
theorem jmpBResult : Obligations.JmpBResult := fun _ _ => exec_of_dest_pc rfl

theorem totalOf_jnc (im : Nibble) (s : State) : totalOf (.jnc im) s = s.cf.toNat + im.toNat := rfl

/-- Settles O31: the total is the immediate where the flag is 0, and the immediate plus one where it is 1. -/
theorem jncResult : Obligations.JncResult := by
  intro im s
  refine ⟨fun hcf => ?taken, fun hcf => ?untaken⟩
  case taken =>
    have htotal : totalOf (.jnc im) s = im.toNat := by rw [totalOf_jnc, hcf, Bool.toNat_false, Nat.zero_add]
    rw [exec_of_dest_pc (i := .jnc im) (jumpIfNoCarry_of_clear hcf), htotal, sumOf_toNat_eq, carryOf_toNat_eq_false]
  case untaken =>
    have htotal : totalOf (.jnc im) s = im.toNat + 1 := by rw [totalOf_jnc, hcf, Bool.toNat_true, Nat.add_comm]
    rw [exec_of_dest_none (i := .jnc im) (jumpIfNoCarry_of_set hcf), htotal, carryOf_succ]

/-- Settles O32: the total is the immediate, plus one where the flag is 1. -/
theorem jmpResult : Obligations.JmpResult := by
  intro im s
  have hexec : exec (.jmp im) s = .next { s with pc := sumOf (total s 0 im), cf := carryOf (total s 0 im) } :=
    exec_of_dest_pc rfl
  have htarget : sumOf (total s 0 im) = if s.cf = false then im else sumOf (im.toNat + 1) := by
    rw [total_zero_left]
    cases s.cf with
    | false => simp [sumOf_toNat_eq]
    | true => simp [Nat.add_comm]
  rw [hexec, htarget]

/-- Settles O36: the all-zero word is `ADD A 0000`, whose total is A, plus one where the flag is 1. -/
theorem allZeroWordIsNopOnlyWithoutCarry : Obligations.AllZeroWordIsNopOnlyWithoutCarry := by
  intro s
  have hdecode : decode 0x00#8 = .addAIm 0 := decode_encode (.addAIm 0)
  rw [hdecode, addAImResult, total_zero_right]
  refine ⟨fun hcf => ?_, fun hcf => ?_⟩
  · rw [hcf, Bool.toNat_false, Nat.zero_add, sumOf_toNat_eq, carryOf_toNat_eq_false, ← hcf]
  · rw [hcf, Bool.toNat_true, Nat.add_comm, carryOf_succ]

/-- Settles O37: in each form the total is the carry flag and the one value that the plain meaning copies. -/
theorem plainMeaningExactlyWithoutCarry : Obligations.PlainMeaningExactlyWithoutCarry := by
  intro im s
  have loads : ∀ q : Nibble, sumOf (total s 0 q) = q ↔ s.cf = false := sumOf_cf_add_eq_self_iff s.cf
  have copies : ∀ q : Nibble, sumOf (total s q 0) = q ↔ s.cf = false := sumOf_cf_add_eq_self_iff s.cf
  exact ⟨⟨_, movAImResult im s, loads im⟩, ⟨_, movBImResult im s, loads im⟩, ⟨_, outImResult im s, loads im⟩,
    ⟨_, exec_of_dest_pc rfl, loads im⟩, ⟨_, movABResult 0 s, copies s.b⟩, ⟨_, movBAResult 0 s, copies s.a⟩,
    ⟨_, outBResult 0 s, copies s.b⟩⟩

/-- Settles O38: the untaken jump leaves the flag 0, which takes the next one. -/
theorem jncAfterUntakenJncIsTaken : Obligations.JncAfterUntakenJncIsTaken := by
  intro im im' s hcf him
  refine ⟨_, _, (jncResult im s).2 hcf, rfl, (jncResult im' _).1 ?_, rfl⟩
  exact decide_eq_false him

end Sys2Proof
end

section
/-! SUPPORT. The counter and the flip-flop (41_sequential_and_cycle.md R120 to R125), and what instructions leave unchanged:
the frames of 42_mov_add_in.md R158, 43_out.md R164 and 44_jumps.md R174. -/

namespace Sys2Proof

open Machine

/-! The counter and the flip-flop: one equation for each of reset, load and count. -/

@[simp] theorem counterNext_reset (loadN : Bool) (d q : Nibble) : counterNext loadN false d q = 0 := rfl
@[simp] theorem counterNext_load (d q : Nibble) : counterNext false true d q = d := rfl
@[simp] theorem counterNext_count (d q : Nibble) : counterNext true true d q = inc q := rfl
@[simp] theorem flipFlopNext_reset (loadN d q : Bool) : flipFlopNext loadN false d q = false := rfl

theorem counterNext_iterate_toNat (k : Nat) (d q : Nibble) :
    ((counterNext true true d)^[k] q).toNat = (q.toNat + k) % 16 := by
  induction k with
  | zero => exact (Nat.mod_eq_of_lt q.isLt).symm
  | succ k ih =>
    rw [Function.iterate_succ_apply', counterNext_count, inc_toNat, ih]
    omega

/-- Settles O11: one tick is a case of the counter's equations, and `k` counts follow by induction. -/
theorem counterLoadsOrCounts : Obligations.CounterLoadsOrCounts := by
  refine ⟨fun d q => ⟨counterNext_load d q, inc_toNat q, inc_ne_self q, counterNext_reset .., counterNext_reset ..⟩,
    fun k d d' q => ⟨counterNext_iterate_toNat k d q, ?_⟩⟩
  rw [counterNext_load, counterNext_iterate_toNat]

/-- Settles O13: in each element the reset is applied last, and the tick asks for the clock first and the reset next. -/
theorem resetWinsAndIsSynchronous : Obligations.ResetWinsAndIsSynchronous := by
  refine ⟨fun loadN d q => ⟨registerNext_reset loadN d q, counterNext_reset loadN d q⟩, flipFlopNext_reset, fun s => ?_,
    fun s resetN => tick_clock_low _ s rfl⟩
  exact ⟨s.clear, tick_resetPulse s, clear_a s, clear_b s, clear_c s, clear_pc s, clear_cf s⟩

/-! The decoder's outputs for an instruction's opcode: the code of its source, and the load-enable that is 0 is the
destination's. -/

/-- Settles O9: the rows are the decoder's formulas evaluated, and the count is read off them. -/
theorem decoderTruthTable : Obligations.DecoderTruthTable := by
  constructor
  · decide
  · decide

/-- The multiplexer's low select line for each of its inputs (40_combinational_blocks.md R105). -/
def codeA : Operand → Bool
  | .regA | .inputPort => false
  | .regB | .zero => true

/-- The multiplexer's high select line for each of its inputs (R105). -/
def codeB : Operand → Bool
  | .regA | .regB => false
  | .inputPort | .zero => true

/-- The select lines of an operand pick that operand. -/
theorem mux_code (s : State) (o : Operand) :
    mux (codeA o) (codeB o) s.a s.b inputPort constantZero = s.operand o := by
  rw [mux_eq]
  cases o <;> rfl

theorem controlOf_opcode (i : Instr) (s : State) :
    controlOf i.opcode s.cf =
      ⟨codeA (source i), codeB (source i), dest s i != .a, dest s i != .b, dest s i != .c, dest s i != .pc⟩ := by
  cases i with
  | jncB im | jnc im =>
    cases hcf : s.cf <;>
      simp [controlOf, decoderOutputs, gAndN_cons, Instr.opcode, source, codeA, codeB, dest, State.jumpIfNoCarry, hcf]
  | _ => simp [controlOf, decoderOutputs, gAndN_cons, Instr.opcode, source, codeA, codeB, dest]

end Sys2Proof
end

section
/-! SUPPORT. The frames: what each group of opcodes leaves unchanged (42_mov_add_in.md R158, 43_out.md R164, 44_jumps.md
R174), and that PC is no operand (10_state.md R37). -/

namespace Sys2Proof

open Machine

/-! Which register takes the sum, by the value of the opcode (30_encoding.md R64); a conditional jump names none of them,
taken or not. -/

theorem jumpIfNoCarry_eq_pc_or_none (s : State) : s.jumpIfNoCarry = .pc ∨ s.jumpIfNoCarry = .none := by
  unfold State.jumpIfNoCarry
  split
  · exact .inl rfl
  · exact .inr rfl

theorem dest_eq_a_iff (i : Instr) (s : State) : dest s i = .a ↔ i.opcode.toNat < 4 := by
  cases i with
  | jncB im | jnc im => obtain h | h := jumpIfNoCarry_eq_pc_or_none s <;> simp [dest, Instr.opcode, h]
  | _ => simp [dest, Instr.opcode]

theorem dest_eq_b_iff (i : Instr) (s : State) : dest s i = .b ↔ 4 ≤ i.opcode.toNat ∧ i.opcode.toNat < 8 := by
  cases i with
  | jncB im | jnc im => obtain h | h := jumpIfNoCarry_eq_pc_or_none s <;> simp [dest, Instr.opcode, h]
  | _ => simp [dest, Instr.opcode]

theorem dest_eq_c_iff (i : Instr) (s : State) : dest s i = .c ↔ 8 ≤ i.opcode.toNat ∧ i.opcode.toNat < 12 := by
  cases i with
  | jncB im | jnc im => obtain h | h := jumpIfNoCarry_eq_pc_or_none s <;> simp [dest, Instr.opcode, h]
  | _ => simp [dest, Instr.opcode]

theorem opcode_ge_of_dest_eq_pc {i : Instr} {s : State} (h : dest s i = .pc) : 12 ≤ i.opcode.toNat := by
  have ha := mt (dest_eq_a_iff i s).mpr
  have hb := mt (dest_eq_b_iff i s).mpr
  have hc := mt (dest_eq_c_iff i s).mpr
  simp only [h, reduceCtorEq, not_false_eq_true, forall_const] at ha hb hc
  omega

/-- PC counts where the decoder asks for no load of it. -/
theorem dest_ne_pc_of_load3N {i : Instr} {s : State} (h : (controlOf i.opcode s.cf).load3N = true) :
    dest s i ≠ .pc := by
  rw [controlOf_opcode] at h
  exact bne_iff_ne.mp h

/-! An instruction's next state, field by field. -/

section Fields

variable {i : Instr} {s t : State} (h : exec i s = .next t)
include h

/-- An instruction that answers `t` committed its sum. -/
theorem eq_commit_of_exec : t = s.commit (dest s i) (s.mainAlu (source i) i.im) :=
  Host.Outcome.next.inj (h.symm.trans (exec_eq i s))

theorem exec_rom : t.rom = s.rom := by rw [eq_commit_of_exec h, commit_rom]

theorem exec_mode : t.mode = s.mode := by rw [eq_commit_of_exec h, commit_mode]

theorem exec_pulses : t.pulses = s.pulses := by rw [eq_commit_of_exec h, commit_pulses]

theorem exec_keeps_a (hd : ¬ i.opcode.toNat < 4) : t.a = s.a := by
  rw [eq_commit_of_exec h, commit_a, if_neg (mt (dest_eq_a_iff i s).mp hd)]

theorem exec_keeps_b (hd : ¬ (4 ≤ i.opcode.toNat ∧ i.opcode.toNat < 8)) : t.b = s.b := by
  rw [eq_commit_of_exec h, commit_b, if_neg (mt (dest_eq_b_iff i s).mp hd)]

theorem exec_keeps_c (hd : ¬ (8 ≤ i.opcode.toNat ∧ i.opcode.toNat < 12)) : t.c = s.c := by
  rw [eq_commit_of_exec h, commit_c, if_neg (mt (dest_eq_c_iff i s).mp hd)]

theorem exec_counts_pc (hd : dest s i ≠ .pc) : t.pc = inc s.pc := by
  rw [eq_commit_of_exec h, commit_pc, if_neg hd]

theorem exec_counts_pc_of_opcode_lt (hd : i.opcode.toNat < 12) : t.pc = inc s.pc :=
  exec_counts_pc h fun hpc => Nat.not_le_of_lt hd (opcode_ge_of_dest_eq_pc hpc)

end Fields

/-- Settles O33: the opcode names neither C nor PC as the destination, and only one of A and B. -/
theorem movAddInFrame : Obligations.MovAddInFrame := by
  intro i s t hop h
  refine ⟨exec_keeps_c h (by omega), ?_, fun k => ?_, exec_mode h, exec_pulses h, ?_⟩
  · rw [exec_counts_pc_of_opcode_lt h (by omega), inc_eq_nextRow]
  · rw [exec_rom h]
  · split
    · exact exec_keeps_b h (by omega)
    · exact exec_keeps_a h (by omega)

/-- Settles O34: the opcode names C as the destination, and the output port shows C. -/
theorem outFrame : Obligations.OutFrame := by
  intro i s t hlo hhi h
  refine ⟨exec_keeps_a h (by omega), exec_keeps_b h (by omega), ?_, fun k => ?_, exec_mode h, exec_pulses h, rfl⟩
  · rw [exec_counts_pc_of_opcode_lt h hhi, inc_eq_nextRow]
  · rw [exec_rom h]

/-- Settles O35: the opcode names no register as the destination, and PC counts where it is not the destination. -/
theorem jumpFrame : Obligations.JumpFrame := by
  intro i s t hop h
  refine ⟨exec_keeps_a h (by omega), exec_keeps_b h (by omega), exec_keeps_c h (by omega), fun k => ?_, exec_mode h,
    exec_pulses h, fun hload => ?_⟩
  · rw [exec_rom h]
  · rw [exec_counts_pc h (dest_ne_pc_of_load3N hload), inc_eq_nextRow]

/-! PC is no operand: with another PC before it, an instruction commits the same sum to the same destination. -/

/-- The next state with another PC before the instruction. -/
theorem exec_with_pc (i : Instr) (s : State) (q : Nibble) :
    exec i { s with pc := q } =
      .next { s.commit (dest s i) (s.mainAlu (source i) i.im) with
        pc := if dest s i = .pc then (s.mainAlu (source i) i.im).sum else inc q } := by
  have hdest : dest { s with pc := q } i = dest s i := rfl
  have halu : State.mainAlu { s with pc := q } (source i) i.im = s.mainAlu (source i) i.im := rfl
  rw [exec_eq, hdest, halu, ← commit_pc (dest s i) (s.mainAlu (source i) i.im) { s with pc := q }]
  rfl

/-- Settles O12: the increment is the counter's own ALU with carry-in 0, an instruction's flag is that of a sum without PC,
and below opcode 1100 PC is not the destination. -/
theorem incrementIsModulo16AndOffTheFlag : Obligations.IncrementIsModulo16AndOffTheFlag :=
  ⟨fun q => ⟨rfl, inc_toNat q⟩, by decide, fun i s q => ⟨_, _, exec_eq i s, exec_with_pc i s q, rfl⟩,
    fun _ _ _ hop h => exec_counts_pc_of_opcode_lt h hop⟩

/-- Settles O39: both runs commit the same sum, to PC where the decoder's `load3_` is 0, and else each PC counts. -/
theorem pcIsNeverAnOperand : Obligations.PcIsNeverAnOperand := by
  intro i s q
  refine ⟨_, _, exec_eq i s, exec_with_pc i s q, rfl, ?_⟩
  rw [controlOf_opcode, commit_pc, ← inc_eq_nextRow, ← inc_eq_nextRow]
  by_cases hd : dest s i = .pc
  · simp [hd]
  · simp [hd]

end Sys2Proof
end

section
/-! SUPPORT. The ROM block and the wired cycle: the signals of a tick are those of the instruction it fetches
(41_sequential_and_cycle.md R130, R137 to R144). -/

namespace Sys2Proof

open Machine

/-! The ROM block: of the rows that the plane ORs together only the selected one is not 0. -/

/-- A plane whose select lines name one row gives that row if it is among its rows, and 0 if not. -/
theorem selectRows_eq {sel : BitVec 16} {j : Nat} (hsel : ∀ i, sel.getLsbD i = decide (i = j)) (rom : Memory)
    (k n : Nat) : selectRows sel rom k n = if k ≤ j ∧ j < k + n then rom.read j else 0 := by
  induction n generalizing k with
  | zero => simp [selectRows]
  | succ n ih =>
    rw [selectRows, ih, hsel]
    by_cases hk : k = j
    · subst hk
      simp
    · have hrange : (k + 1 ≤ j ∧ j < k + 1 + n) ↔ (k ≤ j ∧ j < k + (n + 1)) := by omega
      simp only [hk, decide_false, Bool.false_eq_true, if_false, hrange]
      exact BitVec.zero_or

theorem romBlock_eq (rom : Memory) (addr : Nibble) : romBlock rom addr = rom.read addr.toNat := by
  have haddr : addr.toNat < Config.romRows := addr.isLt
  rw [romBlock, selectRows_eq (resolve_getLsbD addr), if_pos (by omega)]

/-- Settles O6: the resolver's lines name one row, that of the address's value. -/
theorem romBlockReturnsNamedRow : Obligations.RomBlockReturnsNamedRow := romBlock_eq

/-! The wired cycle against the instruction. -/

/-- The signals of a tick are the fetched word, its instruction's controls and source, and the sum it commits. -/
theorem signals_eq (s : State) :
    s.signals =
      { ir := s.fetch
        ctrl := controlOf (decode s.fetch).opcode s.cf
        sel := s.operand (source (decode s.fetch))
        out := s.mainAlu (source (decode s.fetch)) (decode s.fetch).im } := by
  have hrom : romBlock s.rom s.pc = s.fetch := romBlock_eq s.rom s.pc
  have hsel := mux_code s (source (decode s.fetch))
  simp only [State.signals, State.mainAlu, hrom, ← decode_opcode, ← decode_im, controlOf_opcode, hsel]

theorem cycle_clock_low {p : Pulse} (s : State) (h : p.clock = false) : cycle p s = s := if_pos h

theorem cycle_reset {p : Pulse} (s : State) (h : p.clock = true) (h' : p.resetN = false) : cycle p s = s.clear := by
  simp only [cycle, h, h', Bool.true_eq_false, if_false, registerNext_reset, counterNext_reset, flipFlopNext_reset]
  rfl

/-- On a run tick the load-enables of the decoder commit the sum to the instruction's destination. -/
theorem cycle_run {p : Pulse} (s : State) (h : p.clock = true) (h' : p.resetN = true) :
    cycle p s = s.commit (dest s (decode s.fetch)) (s.mainAlu (source (decode s.fetch)) (decode s.fetch).im) := by
  simp only [cycle, h, h', Bool.true_eq_false, if_false, signals_eq, controlOf_opcode]
  rfl

theorem eq_runPulse {p : Pulse} (h : p.clock = true) (h' : p.resetN = true) : p = runPulse := by
  cases p
  cases h
  cases h'
  rfl

theorem tick_eq_cycle (p : Pulse) (s : State) : tick p s = .next (cycle p s) := by
  by_cases hc : p.clock = false
  · rw [tick_clock_low p s hc, cycle_clock_low s hc]
  · replace hc : p.clock = true := Bool.eq_true_of_not_eq_false hc
    by_cases hr : p.resetN = false
    · rw [tick_reset p s hc hr, cycle_reset s hc hr]
    · replace hr : p.resetN = true := Bool.eq_true_of_not_eq_false hr
      obtain rfl : p = runPulse := eq_runPulse hc hr
      rw [tick_run, exec_eq, cycle_run s rfl rfl]

/-- Settles O48: with the clock low and on a reset tick both hold or clear, and on a run tick the decoder's controls are
those of the instruction that the word decodes to. -/
theorem gateLevelCycleRefinesTheTick : Obligations.GateLevelCycleRefinesTheTick := tick_eq_cycle

/-! The wired cycle against the step function of R147. -/

/-- The decoder's outputs as the boolean formulas of R147, on the bits of the word. -/
theorem controlOf_opcodeOf (w : Word) (cf : Bool) :
    controlOf (opcodeOf w) cf =
      { selectA := w.getLsbD 4 || w.getLsbD 7
        selectB := w.getLsbD 5
        load0N := w.getLsbD 6 || w.getLsbD 7
        load1N := !w.getLsbD 6 || w.getLsbD 7
        load2N := !(!w.getLsbD 6 && w.getLsbD 7)
        load3N := !(w.getLsbD 6 && w.getLsbD 7 && (w.getLsbD 4 || !cf)) } := by
  simp only [controlOf, decoderOutputs, gNandN_eq, gAndN_nil, gAndN_cons, gNot_eq, gAnd_eq, gOr_eq, opcodeOf_getLsbD,
    Nat.reduceLT, Nat.reduceAdd, Bool.and_assoc]

/-! The elements on a run tick, in the words of R147. -/

theorem registerNext_run (loadN : Bool) (d q : Nibble) :
    registerNext loadN true d q = if loadN = false then d else q := rfl

theorem counterNext_run (loadN : Bool) (d q : Nibble) :
    counterNext loadN true d q = if loadN = false then d else nextRow q := by
  rw [← inc_eq_nextRow]
  rfl

theorem flipFlopNext_run (d q : Bool) : flipFlopNext carryLoadN true d q = d := rfl

/-- On a run tick the formulas of the gates are those of R147, its `sel` is the multiplexer's input at the same select
code, and its remainder and quotient are the ALU's outputs. -/
theorem cycle_eq_stepRule (p : Pulse) (s : State) : cycle p s = stepRule p s := by
  unfold stepRule
  by_cases hc : p.clock = false
  · rw [cycle_clock_low s hc, if_pos hc]
  · rw [if_neg hc]
    by_cases hr : p.resetN = false
    · rw [cycle_reset s (Bool.eq_true_of_not_eq_false hc) hr, if_pos hr]
      rfl
    · rw [if_neg hr]
      simp only [cycle, if_neg hc, Bool.eq_true_of_not_eq_false hr, State.signals, romBlock_eq, controlOf_opcodeOf,
        mux_eq, alu_eq_sumOf_carryOf, registerNext_run, counterNext_run, flipFlopNext_run, immOf]
      generalize ((s.rom.read s.pc.toNat).getLsbD 4 || (s.rom.read s.pc.toNat).getLsbD 7) = selectA
      generalize (s.rom.read s.pc.toNat).getLsbD 5 = selectB
      cases selectA <;> cases selectB <;> rfl

/-- Settles O49: the wired cycle is the step function of R147, and the tick is the wired cycle. -/
theorem tickIsTheSpecStepFunction : Obligations.TickIsTheSpecStepFunction :=
  fun p s => ⟨cycle_eq_stepRule p s ▸ tick_eq_cycle p s, cycle_eq_stepRule p s⟩

/-! The snapshot. -/

theorem multiplexer_inputs (s : State) (ctrl : Control) :
    [s.a, s.b, 0, 0][ctrl.selectA.toNat + 2 * ctrl.selectB.toNat]? =
      some (mux ctrl.selectA ctrl.selectB s.a s.b inputPort constantZero) := by
  obtain ⟨-, -, -, -, hselect, -⟩ :=
    multiplexerSelectsByCode ctrl.selectA ctrl.selectB s.a s.b inputPort constantZero
  exact hselect

/-- Settles O47: the snapshot holds the sample and its signals, the ROM block gives the row that PC names, and the tick
writes what the wired cycle does with those signals. -/
theorem snapshotShowsWhatTheTickWrites : Obligations.SnapshotShowsWhatTheTickWrites := by
  intro n s
  have hir : s.signals.ir = s.rom.read s.pc.toNat := romBlock_eq s.rom s.pc
  refine ⟨⟨rfl, rfl, rfl, rfl, rfl, rfl, congrArg opcodeOf hir⟩, ⟨rfl, multiplexer_inputs s s.signals.ctrl, ?total⟩,
    cycle runPulse s, tick_eq_cycle runPulse s, rfl, rfl, rfl, rfl, ?counter⟩
  case total =>
    rw [← hir]
    exact (aluAddsExactly s.cf s.signals.sel (immOf s.signals.ir)).1
  case counter => exact counterNext_run s.signals.ctrl.load3N s.signals.out.sum s.pc

end Sys2Proof
end

section
/-! SUPPORT. The step as the wired cycle of the next pulse, and a run as its iteration (41_sequential_and_cycle.md R133 to
R136, R147, R148). -/

namespace Sys2Proof

open Machine

/-! The pulse that a step takes. -/

theorem pulse_automatic {s : State} (h : s.mode ≠ .manual) : s.pulse = some runPulse := by
  unfold State.pulse
  cases hm : s.mode with
  | manual => exact absurd hm h
  | hz1 | hz10 => rfl

theorem pulse_manual {s : State} (h : s.mode = .manual) : s.pulse = s.pulses.head? := by
  rw [State.pulse, h]

theorem afterPulse_eq (s : State) :
    s.afterPulse = { s with pulses := if s.mode = .manual then s.pulses.tail else s.pulses } := by
  rw [← afterPulse_pulses]
  unfold State.afterPulse
  split <;> rfl

theorem step_of_pulse {s : State} {p : Pulse} (h : s.pulse = some p) : step s = tick p s.afterPulse := by
  rw [step, nextTick, h]

theorem step_no_pulse {s : State} (h : s.pulse = none) : step s = .next s := by
  rw [step, nextTick, h]

/-- In manual mode a step is the tick of the first pulse of the host's list. -/
theorem step_manual_cons {s : State} {p : Pulse} {ps : List Pulse} (hm : s.mode = .manual) (hp : s.pulses = p :: ps) :
    step s = tick p { s with pulses := ps } := by
  have hpulse : s.pulse = some p := by rw [pulse_manual hm, hp, List.head?_cons]
  rw [step_of_pulse hpulse, afterPulse_eq, if_pos hm, hp, List.tail_cons]

/-- A run tick runs the instruction that the fetched word decodes to. -/
theorem step_of_runTick {s : State} (h : RunTick s) : step s = exec (decode s.fetch) s.afterPulse := by
  rw [step_of_pulse h, tick_run, fetch_afterPulse]

/-- Settles O42: the row that PC names is the fetched word. -/
theorem stepRunsTheDecodedInstruction : Obligations.StepRunsTheDecodedInstruction := by
  rintro s _ hrun rfl -
  exact ⟨step_of_runTick hrun, afterPulse_eq s⟩

/-- Settles O43: a pulse with the clock low is taken from the list and its tick holds; with no pulse there is no tick. -/
theorem noAssertedClockNoChange : Obligations.NoAssertedClockNoChange := by
  refine ⟨fun s resetN ps hm hp => ?_, fun s hm hp => ?_⟩
  · rw [step_manual_cons hm hp, tick_clock_low _ _ rfl]
  · exact step_no_pulse (by rw [pulse_manual hm, hp, List.head?_nil])

/-! The step is total. -/

/-- The state after one step: the wired cycle on the next pulse, if there is one. -/
def advance (s : State) : State :=
  match s.pulse with
  | none => s
  | some p => cycle p s.afterPulse

theorem step_eq_advance (s : State) : step s = .next (advance s) := by
  unfold advance
  cases hp : s.pulse with
  | none => exact step_no_pulse hp
  | some p => rw [step_of_pulse hp, tick_eq_cycle]

theorem runSteps_succ_of_step {s u : State} (h : step s = .next u) (n : Nat) : runSteps (n + 1) s = runSteps n u := by
  rw [runSteps, h]

/-- A run answers the state that as many advances reach. -/
theorem runSteps_eq_iterate (n : Nat) (s : State) : runSteps n s = .next (advance^[n] s) := by
  induction n generalizing s with
  | zero => rfl
  | succ n ih => rw [runSteps_succ_of_step (step_eq_advance s), ih, Function.iterate_succ_apply]

/-- Settles O50: the run answers what the advances reach. -/
theorem everyRunGoesOn : Obligations.EveryRunGoesOn := fun n s => ⟨_, runSteps_eq_iterate n s⟩

/-- A run of `m + n` steps is a run of `m` steps that reaches some state, and then `n` steps from it. -/
theorem runSteps_add {m : Nat} {s u : State} (h : runSteps m s = .next u) (n : Nat) :
    runSteps (m + n) s = runSteps n u := by
  rw [runSteps_eq_iterate] at h
  cases h
  rw [runSteps_eq_iterate, runSteps_eq_iterate, ← Function.iterate_add_apply, Nat.add_comm]

theorem runSteps_one (s : State) : runSteps 1 s = step s := by
  rw [runSteps_eq_iterate, step_eq_advance, Function.iterate_one]

/-! What a step keeps. -/

/-- Settles O53: a step leaves the ROM as it is. -/
theorem everyStepKeepsTheInvariant : Obligations.EveryStepKeepsTheInvariant := by
  intro s t hs h
  rw [MachineInv, step_rom h]
  exact hs

/-- Settles O54: the reset state is written out, and its ROM lists no row. -/
theorem resetMeetsTheInvariant : Obligations.ResetMeetsTheInvariant :=
  ⟨rfl, rfl, rfl, rfl, rfl, rfl, fun _ => rfl, rfl⟩

theorem step_mode {s t : State} (h : step s = .next t) : t.mode = s.mode := by
  obtain ⟨-, rfl⟩ | ⟨_, -, -, rfl⟩ | ⟨_, -, -, -, rfl⟩ | ⟨_, -, -, -, d, r, rfl⟩ := step_cases s t h
  · rfl
  · exact afterPulse_mode s
  · rw [clear_mode, afterPulse_mode]
  · rw [commit_mode, afterPulse_mode]

theorem runSteps_mode {n : Nat} {s t : State} (h : runSteps n s = .next t) : t.mode = s.mode :=
  runSteps_preserves (P := fun u => u.mode = s.mode) (fun _ _ hu hv => (step_mode hv).trans hu) rfl h

/-- Settles O44: a run keeps the mode, and in an automatic mode the pulse is a run pulse. -/
theorem automaticModesNeverReset : Obligations.AutomaticModesNeverReset := by
  refine fun s hm => ⟨pulse_automatic hm, fun n t h => ?_⟩
  have hmode : t.mode = s.mode := runSteps_mode h
  exact ⟨hmode, pulse_automatic (hmode ▸ hm)⟩

/-! Register C is a sink: nothing of a tick's signals is read from it. -/

theorem cycle_with_c (p : Pulse) (s : State) (x : Nibble) :
    ∃ y, cycle p { s with c := x } = { cycle p s with c := y } := by
  by_cases hc : p.clock = false
  · exact ⟨x, by rw [cycle_clock_low _ hc, cycle_clock_low _ hc]⟩
  · exact ⟨_, by rw [cycle, cycle, if_neg hc, if_neg hc]; rfl⟩

theorem advance_with_c (s : State) (x : Nibble) : ∃ y, advance { s with c := x } = { advance s with c := y } := by
  have hafter : State.afterPulse { s with c := x } = { s.afterPulse with c := x } := by
    rw [afterPulse_eq, afterPulse_eq]
  have hpulse : State.pulse { s with c := x } = s.pulse := rfl
  unfold advance
  rw [hpulse, hafter]
  cases s.pulse with
  | none => exact ⟨x, rfl⟩
  | some p => exact cycle_with_c p s.afterPulse x

theorem iterate_advance_with_c (n : Nat) (s : State) (x : Nibble) :
    ∃ y, advance^[n] { s with c := x } = { advance^[n] s with c := y } := by
  induction n generalizing s x with
  | zero => exact ⟨x, rfl⟩
  | succ n ih =>
    obtain ⟨y, hy⟩ := advance_with_c s x
    rw [Function.iterate_succ_apply, Function.iterate_succ_apply, hy]
    exact ih (advance s) y

/-- Settles O52: by induction, as each advance from states that differ in C alone leaves states that differ in C alone. -/
theorem registerCInfluencesNothing : Obligations.RegisterCInfluencesNothing := by
  intro n s x
  obtain ⟨y, hy⟩ := iterate_advance_with_c n s x
  refine ⟨_, _, runSteps_eq_iterate n s, runSteps_eq_iterate n _, ?_⟩
  rw [hy]

/-! The three clock modes. -/

/-- A run under a generator of run pulses: where `view k` shows a state with `k` pulses still to come, `n` steps are `n`
run ticks. -/
theorem runSteps_of_run_pulses {view : Nat → State → State}
    (hstep : ∀ k s, step (view (k + 1) s) = .next (view k (cycle runPulse s))) (n : Nat) (s : State) :
    runSteps n (view n s) = .next (view 0 ((cycle runPulse)^[n] s)) := by
  induction n generalizing s with
  | zero => rfl
  | succ n ih => rw [runSteps_succ_of_step (hstep n s), ih, Function.iterate_succ_apply]

/-- A run tick neither reads nor writes what belongs to the generator. -/
theorem tick_run_with_generator (s : State) (m : ClockMode) (ps : List Pulse) :
    tick runPulse { s with mode := m, pulses := ps } = .next { cycle runPulse s with mode := m, pulses := ps } := by
  rw [tick_eq_cycle]
  rfl

/-- Settles O45: in each mode every step of the run is a run tick, and `n` of them are the one result. -/
theorem clockModesGiveTheSameRun : Obligations.ClockModesGiveTheSameRun := by
  intro n s ps
  refine ⟨(cycle runPulse)^[n] s,
    runSteps_of_run_pulses (view := fun _ s => { s with mode := .hz1 }) (fun _ s => ?_) n s,
    runSteps_of_run_pulses (view := fun _ s => { s with mode := .hz10 }) (fun _ s => ?_) n s,
    runSteps_of_run_pulses (view := fun k s => { s with mode := .manual, pulses := List.replicate k runPulse ++ ps })
      (fun k s => ?_) n s⟩
  · exact tick_eq_cycle runPulse { s with mode := .hz1 }
  · exact tick_eq_cycle runPulse { s with mode := .hz10 }
  · rw [step_manual_cons (p := runPulse) rfl (by rw [List.replicate_succ, List.cons_append])]
    exact tick_run_with_generator s _ _

/-! Reset held by the host. -/

theorem step_resetPulse_cons {s : State} {ps : List Pulse} (hm : s.mode = .manual) (hp : s.pulses = resetPulse :: ps) :
    step s = .next { s.clear with pulses := ps } := by
  rw [step_manual_cons hm hp, tick_resetPulse]
  rfl

/-- Held reset pulses leave the cleared state, however many there are. -/
theorem runSteps_held_reset (n : Nat) {s : State} {ps : List Pulse} (hm : s.mode = .manual)
    (hp : s.pulses = List.replicate (n + 1) resetPulse ++ ps) :
    runSteps (n + 1) s = .next { s.clear with pulses := ps } := by
  induction n generalizing s with
  | zero => exact (runSteps_one s).trans (step_resetPulse_cons hm hp)
  | succ n ih =>
    rw [runSteps_succ_of_step (step_resetPulse_cons hm hp)]
    exact ih hm rfl

/-- Settles O41: the held pulses clear the state, and the run pulse after them fetches row 0. -/
theorem heldResetThenRowZero : Obligations.HeldResetThenRowZero := by
  intro n s ps hm hp
  have hheld := runSteps_held_reset n hm hp
  refine ⟨hheld, ?_⟩
  rw [runSteps_add hheld 1, runSteps_one]
  exact step_manual_cons (s := { s.clear with pulses := runPulse :: ps }) hm rfl

/-! A word placed in the row that PC names. -/

theorem withNextWord_runTick (s : State) (w : Word) : RunTick (s.withNextWord w) := by
  by_cases h : s.pulse = some runPulse
  · unfold RunTick
    rw [← h]
    unfold State.pulse
    rw [withNextWord_mode, if_pos h, withNextWord_pulses]
  · exact pulse_automatic (by rw [withNextWord_mode, if_neg h]; decide)

theorem withNextWord_fetch {s : State} (h : MachineInv s) (w : Word) : (s.withNextWord w).fetch = w := by
  rw [State.fetch, withNextWord_rom, withNextWord_pc, read_write s.rom s.pc s.pc w h, if_pos rfl]

theorem withFetchWord_eq (s : State) {w : Nat} (hw : w < 2 ^ 8) :
    s.withFetchWord 8 w = s.withNextWord (BitVec.ofNat 8 w) := by
  rw [State.withFetchWord, Nat.mod_eq_of_lt hw]

/-- Settles O46: the placed word is the one fetched, the next tick is a run tick, and the other rows read as before. -/
theorem placedWordRunsNext : Obligations.PlacedWordRunsNext := by
  intro s w hs hw
  rw [withFetchWord_eq s hw]
  refine ⟨?_, fun row hrow => ?_, rfl, rfl, rfl, rfl, rfl, write_wf s.rom s.pc _ hs⟩
  · rw [step_of_runTick (withNextWord_runTick s _), withNextWord_fetch hs]
  · rw [withNextWord_rom, read_write s.rom s.pc row _ hs, if_neg hrow.symm]

end Sys2Proof
end

section
/-! SUPPORT. The assembler's lexer: what delimits tokens, and the tokens of a line (30_encoding.md R72). -/

namespace Sys2Proof

open Machine

theorem separates_space (o : AsmOpen) : o.separates ' ' = true := rfl

/-- No printable ASCII character other than the space is whitespace under any reading. -/
theorem separates_printable (o : AsmOpen) {ch : Char} (hlo : 0x21 ≤ ch.toNat) (hhi : ch.toNat ≤ 0x7E) :
    o.separates ch = false := by
  have hspace : (ch == ' ') = false := beq_false_of_ne fun h => by subst h; exact absurd hlo (by decide)
  have hwhite : whitespaceChar ch = false := by
    simp only [whitespaceChar, Bool.or_eq_false_iff, Bool.and_eq_false_iff, decide_eq_false_iff_not]
    refine ⟨⟨⟨by omega, by omega⟩, by omega⟩, ?_⟩
    simp only [List.contains_eq_mem, decide_eq_false_iff_not, List.mem_cons, List.not_mem_nil, or_false]
    omega
  rw [AsmOpen.separates, hspace, hwhite]
  rfl

section Tokens

variable {sep : Char → Bool}

theorem tokensFrom_nil (acc : Token) : tokensFrom sep acc [] = if acc = [] then [] else [acc.reverse] := rfl

theorem tokensFrom_cons_of_not_delimiter {ch : Char} (hch : sep ch = false) (acc : Token) (r : List Char) :
    tokensFrom sep acc (ch :: r) = tokensFrom sep (ch :: acc) r := by
  simp only [tokensFrom, hch, Bool.false_eq_true, if_false]

/-- A delimiter ends the token being read, if there is one, and the rest of the line is read afresh. -/
theorem tokensFrom_cons_of_delimiter {ch : Char} (hch : sep ch = true) (acc : Token) (r : List Char) :
    tokensFrom sep acc (ch :: r) = tokensFrom sep acc [] ++ tokensFrom sep [] r := by
  by_cases hacc : acc = [] <;> simp [tokensFrom, hch, hacc]

/-- Undelimited characters are more of the token being read. -/
theorem tokensFrom_undelimited {w : List Char} (hw : ∀ ch ∈ w, sep ch = false) (acc : Token) :
    tokensFrom sep acc w = tokensFrom sep (w.reverse ++ acc) [] := by
  induction w generalizing acc with
  | nil => rfl
  | cons ch w ih =>
    obtain ⟨hch, hw⟩ := List.forall_mem_cons.mp hw
    rw [tokensFrom_cons_of_not_delimiter hch, ih hw, List.reverse_cons, List.append_assoc, List.singleton_append]

/-- The tokens on the left of a delimiter do not depend on what is on its right. -/
theorem tokensFrom_append_delimiter {ch : Char} (hch : sep ch = true) (l r : List Char) (acc : Token) :
    tokensFrom sep acc (l ++ ch :: r) = tokensFrom sep acc l ++ tokensFrom sep [] r := by
  induction l generalizing acc with
  | nil => exact tokensFrom_cons_of_delimiter hch acc r
  | cons c l ih =>
    rw [List.cons_append]
    cases hc : sep c with
    | true =>
      rw [tokensFrom_cons_of_delimiter hc, tokensFrom_cons_of_delimiter hc, ih, List.append_assoc]
    | false => rw [tokensFrom_cons_of_not_delimiter hc, tokensFrom_cons_of_not_delimiter hc, ih]

end Tokens

@[simp] theorem tokens_nil (o : AsmOpen) : tokens o [] = [] := rfl

theorem tokens_word (o : AsmOpen) {w : List Char} (hne : w ≠ []) (hw : ∀ ch ∈ w, o.separates ch = false) :
    tokens o w = [w] := by
  rw [tokens, tokensFrom_undelimited hw, List.append_nil, tokensFrom_nil, if_neg (by simpa using hne),
    List.reverse_reverse]

theorem tokens_append_delimiter (o : AsmOpen) {ch : Char} (hch : o.separates ch = true) (l r : List Char) :
    tokens o (l ++ ch :: r) = tokens o l ++ tokens o r :=
  tokensFrom_append_delimiter hch l r []

/-! A line of words with single spaces between them has these words as its tokens. -/

/-- A token that every reading takes as one: printable ASCII characters other than the space, at least one. -/
def isWord (w : List Char) : Bool := !w.isEmpty && w.all fun ch => decide (0x21 ≤ ch.toNat) && decide (ch.toNat ≤ 0x7E)

theorem tokens_of_isWord (o : AsmOpen) {w : List Char} (h : isWord w = true) : tokens o w = [w] := by
  simp only [isWord, Bool.and_eq_true, Bool.not_eq_true', List.isEmpty_eq_false_iff, List.all_eq_true,
    decide_eq_true_eq] at h
  obtain ⟨hne, hchars⟩ := h
  exact tokens_word o hne fun ch hch => separates_printable o (hchars ch hch).1 (hchars ch hch).2

theorem tokens_word_space (o : AsmOpen) {w : List Char} (h : isWord w = true) (r : List Char) :
    tokens o (w ++ ' ' :: r) = w :: tokens o r := by
  rw [tokens_append_delimiter o (separates_space o), tokens_of_isWord o h, List.singleton_append]

theorem isWord_digitsOf (im : Nibble) : isWord (digitsOf im) = true := by
  revert im; decide

end Sys2Proof
end

section
/-! SUPPORT. One line of the assembler: a line's tokens are accepted exactly in the forms of the operand table, and give the
word of the form's instruction (30_encoding.md R73 to R77). -/

namespace Sys2Proof

open Machine

/-! A row of the ROM bit-matrix and its word. -/

theorem rowOf_length (w : Word) : (rowOf w).length = 8 := by simp [rowOf]

theorem wordOfRow_rowOf (w : Word) : wordOfRow (rowOf w) = w := by
  revert w; decide

/-- The row of an instruction's word: the immediate's bits, then the opcode's, each bit 0 first. -/
theorem rowOf_encode {i : Instr} {o0 o1 o2 o3 d0 d1 d2 d3 : Bool} (hop : i.opcode = nibbleOfBits o0 o1 o2 o3)
    (him : i.im = nibbleOfBits d0 d1 d2 d3) : rowOf (encode i) = [d0, d1, d2, d3, o0, o1, o2, o3] := by
  rw [encode, hop, him]
  clear hop him
  revert o0 o1 o2 o3 d0 d1 d2 d3; decide

/-! The operand that a token names, as an equivalence for each kind. -/

theorem lettersOf_length (anyCase : Bool) (t : Token) : (lettersOf anyCase t).length = t.length := by
  cases anyCase <;> simp [lettersOf]

/-- A token of one letter is no immediate. -/
theorem immediateToken_eq_none {anyCase : Bool} {t : Token} {ch : Char} (h : lettersOf anyCase t = [ch]) :
    immediateToken t = none := by
  have hlen : t.length = 1 := by rw [← lettersOf_length anyCase, h, List.length_singleton]
  obtain ⟨c, rfl⟩ := List.length_eq_one_iff.mp hlen
  rfl

theorem immediateToken_digitsOf_nibbleOfBits (d0 d1 d2 d3 : Bool) :
    immediateToken (digitsOf (nibbleOfBits d0 d1 d2 d3)) = some (.imm d3 d2 d1 d0) := by
  revert d0 d1 d2 d3; decide

theorem operandToken_eq_regA (o : AsmOpen) (t : Token) :
    operandToken o t = some .regA ↔ lettersOf o.registersAnyCase t = ['A'] := by
  constructor
  · intro h
    obtain ⟨im, -, him⟩ | ⟨-, hA⟩ | ⟨hB, -⟩ := operandToken_cases o t _ h
    · cases him
    · exact hA
    · cases hB
  · intro h
    simp [operandToken, immediateToken_eq_none h, h]

theorem operandToken_eq_regB (o : AsmOpen) (t : Token) :
    operandToken o t = some .regB ↔ lettersOf o.registersAnyCase t = ['B'] := by
  constructor
  · intro h
    obtain ⟨im, -, him⟩ | ⟨hA, -⟩ | ⟨-, hB⟩ := operandToken_cases o t _ h
    · cases him
    · cases hA
    · exact hB
  · intro h
    simp [operandToken, immediateToken_eq_none h, h]

theorem operandToken_eq_imm (o : AsmOpen) (t : Token) (d3 d2 d1 d0 : Bool) :
    operandToken o t = some (.imm d3 d2 d1 d0) ↔ t = digitsOf (nibbleOfBits d0 d1 d2 d3) := by
  constructor
  · intro h
    obtain ⟨im, rfl, him⟩ | ⟨hA, -⟩ | ⟨hB, -⟩ := operandToken_cases o t _ h
    · cases him
      rw [nibbleOfBits_getLsbD]
    · cases hA
    · cases hB
  · rintro rfl
    rw [operandToken, immediateToken_digitsOf_nibbleOfBits]

theorem operandToken_digitsOf (o : AsmOpen) (im : Nibble) :
    operandToken o (digitsOf im) = some (.imm (im.getLsbD 3) (im.getLsbD 2) (im.getLsbD 1) (im.getLsbD 0)) := by
  rw [operandToken, immediateToken_digitsOf]

theorem operandToken_regA {o : AsmOpen} {r : Token} (h : lettersOf o.registersAnyCase r = ['A']) :
    operandToken o r = some .regA :=
  (operandToken_eq_regA o r).mpr h

theorem operandToken_regB {o : AsmOpen} {r : Token} (h : lettersOf o.registersAnyCase r = ['B']) :
    operandToken o r = some .regB :=
  (operandToken_eq_regB o r).mpr h

/-- The operands of a form's tokens are those that each token names. -/
theorem operandTokens_cons_eq_some (o : AsmOpen) (ts : List Token) (x : AsmOperand) (xs : List AsmOperand) :
    operandTokens o ts = some (x :: xs) ↔
      ∃ t ts', ts = t :: ts' ∧ operandToken o t = some x ∧ operandTokens o ts' = some xs := by
  cases ts with
  | nil => simp [operandTokens]
  | cons t ts => simp [operandTokens, Option.bind_eq_some_iff]

theorem operandTokens_eq_some_nil (o : AsmOpen) (ts : List Token) : operandTokens o ts = some [] ↔ ts = [] := by
  cases ts with
  | nil => simp [operandTokens]
  | cons t ts => simp [operandTokens, Option.bind_eq_some_iff]

theorem operandTokens_eq_one (o : AsmOpen) (ts : List Token) (x : AsmOperand) :
    operandTokens o ts = some [x] ↔ ∃ r, ts = [r] ∧ operandToken o r = some x := by
  simp [operandTokens_cons_eq_some, operandTokens_eq_some_nil]

theorem operandTokens_eq_two (o : AsmOpen) (ts : List Token) (x y : AsmOperand) :
    operandTokens o ts = some [x, y] ↔ ∃ r q, ts = [r, q] ∧ operandToken o r = some x ∧ operandToken o q = some y := by
  simp [operandTokens_cons_eq_some, operandTokens_eq_some_nil]

theorem operandTokens_one {o : AsmOpen} {r : Token} {x : AsmOperand} (hr : operandToken o r = some x) :
    operandTokens o [r] = some [x] :=
  (operandTokens_eq_one o _ x).mpr ⟨r, rfl, hr⟩

theorem operandTokens_two {o : AsmOpen} {r q : Token} {x y : AsmOperand} (hr : operandToken o r = some x)
    (hq : operandToken o q = some y) : operandTokens o [r, q] = some [x, y] :=
  (operandTokens_eq_two o _ x y).mpr ⟨r, q, rfl, hr, hq⟩

theorem operandTokens_length {o : AsmOpen} {ts : List Token} {ops : List AsmOperand}
    (h : operandTokens o ts = some ops) :
    ts.length = ops.length := by
  induction ops generalizing ts with
  | nil => exact congrArg List.length ((operandTokens_eq_some_nil o ts).mp h)
  | cons x xs ih =>
    obtain ⟨t, ts', rfl, -, hxs⟩ := (operandTokens_cons_eq_some o ts x xs).mp h
    rw [List.length_cons, List.length_cons, ih hxs]

/-- Every row of the operand table has one or two operands. -/
theorem operandTable_length {m : Mnemonic} {ops : List AsmOperand} {bits : List Bool}
    (h : operandTable m ops = some bits) :
    ops.length = 1 ∨ ops.length = 2 := by
  unfold operandTable at h
  dsimp only at h
  split at h
  case h_13 => cases h
  all_goals simp

/-! The tokens of a line. -/

/-- A mnemonic and operands look up a row of the operand table. -/
theorem lookup_eq_some {o : AsmOpen} {t : Token} {ts : List Token} {bits : List Bool} :
    (do operandTable (← mnemonicToken o t) (← operandTokens o ts)) = some bits ↔
      ∃ m ops, lettersOf o.mnemonicsAnyCase t = Mnemonic.letters m ∧ operandTokens o ts = some ops ∧
        operandTable m ops = some bits := by
  simp only [Option.bind_eq_bind, Option.bind_eq_some_iff, mnemonicToken_eq_some, exists_and_left]

theorem assembleTokens_of_lookup {o : AsmOpen} {t : Token} {ts : List Token} {bits : List Bool} (k : Nat)
    (h : (do operandTable (← mnemonicToken o t) (← operandTokens o ts)) = some bits) :
    assembleTokens o k (t :: ts) = .ok bits.reverse := by
  obtain ⟨m, ops, -, hops, htable⟩ := lookup_eq_some.mp h
  have hlen : ts.length = 1 ∨ ts.length = 2 := operandTokens_length hops ▸ operandTable_length htable
  rw [assembleTokens, if_pos hlen, h]

theorem assembleTokens_of_no_lookup {o : AsmOpen} {t : Token} {ts : List Token} (k : Nat)
    (hlen : ts.length = 1 ∨ ts.length = 2)
    (h : (do operandTable (← mnemonicToken o t) (← operandTokens o ts)) = none) :
    assembleTokens o k (t :: ts) = .error (.operationError k) := by
  rw [assembleTokens, if_pos hlen, h]

theorem assembleTokens_of_length {o : AsmOpen} {ts : List Token} (k : Nat) (h : ¬ (ts.length = 2 ∨ ts.length = 3)) :
    assembleTokens o k ts = .error (.syntaxError k) := by
  cases ts with
  | nil => rfl
  | cons t ts =>
    rw [List.length_cons] at h
    rw [assembleTokens, if_neg (by omega)]

/-- Two or three tokens are a row of the operand table or an operation error. -/
theorem assembleTokens_two_or_three {o : AsmOpen} {ts : List Token} (k : Nat) (h : ts.length = 2 ∨ ts.length = 3) :
    (∃ row, assembleTokens o k ts = .ok row) ∨ assembleTokens o k ts = .error (.operationError k) := by
  cases ts with
  | nil => simp at h
  | cons t ts =>
    rw [List.length_cons] at h
    cases hl : (do operandTable (← mnemonicToken o t) (← operandTokens o ts)) with
    | some bits => exact .inl ⟨_, assembleTokens_of_lookup k hl⟩
    | none => exact .inr (assembleTokens_of_no_lookup k (by omega) hl)

/-- Tokens that assemble are a mnemonic and the operands of a row of the operand table. -/
theorem operandTable_of_assembleTokens {o : AsmOpen} {k : Nat} {ts : List Token} {row : List Bool}
    (h : assembleTokens o k ts = .ok row) :
    ∃ t ts' m ops bits, ts = t :: ts' ∧ lettersOf o.mnemonicsAnyCase t = Mnemonic.letters m ∧
      operandTokens o ts' = some ops ∧ operandTable m ops = some bits ∧ row = bits.reverse := by
  by_cases hlen : ts.length = 2 ∨ ts.length = 3
  · cases ts with
    | nil => simp at hlen
    | cons t ts =>
      rw [List.length_cons] at hlen
      cases hl : (do operandTable (← mnemonicToken o t) (← operandTokens o ts)) with
      | some bits =>
        obtain ⟨m, ops, hm, hops, htable⟩ := lookup_eq_some.mp hl
        rw [assembleTokens_of_lookup k hl] at h
        cases h
        exact ⟨t, ts, m, ops, bits, rfl, hm, hops, htable, rfl⟩
      | none =>
        rw [assembleTokens_of_no_lookup k (by omega) hl] at h
        cases h
  · rw [assembleTokens_of_length k hlen] at h
    cases h

/-- A mnemonic and the operands of a row of the operand table assemble to an instruction whose row it is. -/
theorem assembleTokens_of_row {o : AsmOpen} (k : Nat) {t : Token} {ts : List Token} {m : Mnemonic}
    {ops : List AsmOperand} {bits : List Bool} {i : Instr} (hm : lettersOf o.mnemonicsAnyCase t = m.letters)
    (hops : operandTokens o ts = some ops) (htable : operandTable m ops = some bits)
    (hrow : rowOf (encode i) = bits.reverse) : assembleTokens o k (t :: ts) = .ok (rowOf (encode i)) := by
  rw [hrow]
  exact assembleTokens_of_lookup k (lookup_eq_some.mpr ⟨m, ops, hm, hops, htable⟩)

/-! The rows of the operand table are the accepted forms. -/

theorem acceptedForm_of_operandTable {o : AsmOpen} {t : Token} {ts : List Token} {m : Mnemonic} {ops : List AsmOperand}
    {bits : List Bool} (hm : lettersOf o.mnemonicsAnyCase t = m.letters) (hops : operandTokens o ts = some ops)
    (htable : operandTable m ops = some bits) :
    ∃ i, AcceptedForm o (t :: ts) i ∧ bits.reverse = rowOf (encode i) := by
  unfold operandTable at htable
  dsimp only at htable
  split at htable
  case h_13 => cases htable
  all_goals
    cases htable
    simp only [operandTokens_eq_one, operandTokens_eq_two, operandToken_eq_regA, operandToken_eq_regB,
      operandToken_eq_imm] at hops
  case h_1 =>
    obtain ⟨r, q, rfl, hr, rfl⟩ := hops
    exact ⟨.addAIm _, .addA t r _ hm hr, (rowOf_encode rfl rfl).symm⟩
  case h_2 =>
    obtain ⟨r, q, rfl, hr, rfl⟩ := hops
    exact ⟨.addBIm _, .addB t r _ hm hr, (rowOf_encode rfl rfl).symm⟩
  case h_3 =>
    obtain ⟨r, q, rfl, hr, rfl⟩ := hops
    exact ⟨.movAIm _, .movAIm t r _ hm hr, (rowOf_encode rfl rfl).symm⟩
  case h_4 =>
    obtain ⟨r, q, rfl, hr, rfl⟩ := hops
    exact ⟨.movBIm _, .movBIm t r _ hm hr, (rowOf_encode rfl rfl).symm⟩
  case h_5 =>
    obtain ⟨r, q, rfl, hr, hq⟩ := hops
    exact ⟨.movAB 0, .movAB t r q hm hr hq, (rowOf_encode rfl rfl).symm⟩
  case h_6 =>
    obtain ⟨r, q, rfl, hr, hq⟩ := hops
    exact ⟨.movBA 0, .movBA t r q hm hr hq, (rowOf_encode rfl rfl).symm⟩
  case h_7 =>
    obtain ⟨r, rfl, hr⟩ := hops
    exact ⟨.inA 0, .inA t r hm hr, (rowOf_encode rfl rfl).symm⟩
  case h_8 =>
    obtain ⟨r, rfl, hr⟩ := hops
    exact ⟨.inB 0, .inB t r hm hr, (rowOf_encode rfl rfl).symm⟩
  case h_9 =>
    obtain ⟨r, rfl, hr⟩ := hops
    exact ⟨.outB 0, .outB t r hm hr, (rowOf_encode rfl rfl).symm⟩
  case h_10 =>
    obtain ⟨r, rfl, rfl⟩ := hops
    exact ⟨.outIm _, .outIm t _ hm, (rowOf_encode rfl rfl).symm⟩
  case h_11 =>
    obtain ⟨r, rfl, rfl⟩ := hops
    exact ⟨.jmp _, .jmp t _ hm, (rowOf_encode rfl rfl).symm⟩
  case h_12 =>
    obtain ⟨r, rfl, rfl⟩ := hops
    exact ⟨.jnc _, .jnc t _ hm, (rowOf_encode rfl rfl).symm⟩

theorem assembleTokens_of_acceptedForm {o : AsmOpen} {ts : List Token} {i : Instr} (k : Nat) (h : AcceptedForm o ts i) :
    assembleTokens o k ts = .ok (rowOf (encode i)) := by
  cases h with
  | addA t r im hm hr =>
    exact assembleTokens_of_row (m := .add) k hm (operandTokens_two (operandToken_regA hr) (operandToken_digitsOf o im))
      rfl (rowOf_encode rfl (nibbleOfBits_getLsbD im).symm)
  | addB t r im hm hr =>
    exact assembleTokens_of_row (m := .add) k hm (operandTokens_two (operandToken_regB hr) (operandToken_digitsOf o im))
      rfl (rowOf_encode rfl (nibbleOfBits_getLsbD im).symm)
  | movAIm t r im hm hr =>
    exact assembleTokens_of_row (m := .mov) k hm (operandTokens_two (operandToken_regA hr) (operandToken_digitsOf o im))
      rfl (rowOf_encode rfl (nibbleOfBits_getLsbD im).symm)
  | movBIm t r im hm hr =>
    exact assembleTokens_of_row (m := .mov) k hm (operandTokens_two (operandToken_regB hr) (operandToken_digitsOf o im))
      rfl (rowOf_encode rfl (nibbleOfBits_getLsbD im).symm)
  | movAB t r q hm hr hq =>
    exact assembleTokens_of_row (m := .mov) k hm (operandTokens_two (operandToken_regA hr) (operandToken_regB hq)) rfl
      (rowOf_encode rfl rfl)
  | movBA t r q hm hr hq =>
    exact assembleTokens_of_row (m := .mov) k hm (operandTokens_two (operandToken_regB hr) (operandToken_regA hq)) rfl
      (rowOf_encode rfl rfl)
  | inA t r hm hr =>
    exact assembleTokens_of_row (m := .inp) k hm (operandTokens_one (operandToken_regA hr)) rfl
      (rowOf_encode rfl rfl)
  | inB t r hm hr =>
    exact assembleTokens_of_row (m := .inp) k hm (operandTokens_one (operandToken_regB hr)) rfl
      (rowOf_encode rfl rfl)
  | outB t r hm hr =>
    exact assembleTokens_of_row (m := .out) k hm (operandTokens_one (operandToken_regB hr)) rfl
      (rowOf_encode rfl rfl)
  | outIm t im hm =>
    exact assembleTokens_of_row (m := .out) k hm (operandTokens_one (operandToken_digitsOf o im)) rfl
      (rowOf_encode rfl (nibbleOfBits_getLsbD im).symm)
  | jmp t im hm =>
    exact assembleTokens_of_row (m := .jmp) k hm (operandTokens_one (operandToken_digitsOf o im)) rfl
      (rowOf_encode rfl (nibbleOfBits_getLsbD im).symm)
  | jnc t im hm =>
    exact assembleTokens_of_row (m := .jnc) k hm (operandTokens_one (operandToken_digitsOf o im)) rfl
      (rowOf_encode rfl (nibbleOfBits_getLsbD im).symm)

theorem assembleLine_eq_ok_iff {o : AsmOpen} {k : Nat} {line : List Char} {row : List Bool} :
    assembleLine o k line = .ok row ↔ ∃ i, AcceptedForm o (tokens o line) i ∧ row = rowOf (encode i) := by
  constructor
  · intro h
    obtain ⟨t, ts', m, ops, bits, hts, hm, hops, htable, rfl⟩ := operandTable_of_assembleTokens h
    rw [hts]
    exact acceptedForm_of_operandTable hm hops htable
  · rintro ⟨i, hform, rfl⟩
    exact assembleTokens_of_acceptedForm k hform

/-- Settles O60: the lexer's laws, and the rows of the operand table are the accepted forms. -/
theorem lineAssemblesExactlyInAcceptedForms : Obligations.LineAssemblesExactlyInAcceptedForms :=
  ⟨fun o => ⟨separates_space o, fun _ => separates_printable o, tokens_nil o, fun _ => tokens_word o,
    fun l r _ hch => tokens_append_delimiter o hch l r⟩, fun _ _ _ _ => assembleLine_eq_ok_iff⟩

/-! What an accepted form gives. -/

theorem assemblesTo_of_acceptedForm {o : AsmOpen} {line : List Char} {i : Instr}
    (h : AcceptedForm o (tokens o line) i) :
    AssemblesTo o line i := fun _ =>
  ⟨rowOf (encode i), assembleLine_eq_ok_iff.mpr ⟨i, h, rfl⟩, rowOf_length _, wordOfRow_rowOf _⟩

theorem assemblerForm_of_acceptedForm {o : AsmOpen} {ts : List Token} {i : Instr} (h : AcceptedForm o ts i) :
    i.assemblerForm = true := by
  cases h <;> rfl

/-- Settles O56: an accepted row decodes to its form's instruction. -/
theorem assembledWordsAreAssemblerForms : Obligations.AssembledWordsAreAssemblerForms := by
  intro o k line row h
  obtain ⟨i, hform, rfl⟩ := assembleLine_eq_ok_iff.mp h
  rw [wordOfRow_rowOf, decode_encode]
  exact ⟨rowOf_length _, assemblerForm_of_acceptedForm hform⟩

/-! Lines in upper case with single spaces. -/

/-- Upper-case letters are read as typed whether case matters or not. -/
theorem lettersOf_of_upper (anyCase : Bool) {w : List Char} (h : w.map Char.toUpper = w) : lettersOf anyCase w = w := by
  cases anyCase
  · rfl
  · exact h

theorem tokens_two (o : AsmOpen) {m r : List Char} (hm : isWord m = true) (hr : isWord r = true) :
    tokens o (m ++ ' ' :: r) = [m, r] := by
  rw [tokens_word_space o hm, tokens_of_isWord o hr]

theorem tokens_three (o : AsmOpen) {m r q : List Char} (hm : isWord m = true) (hr : isWord r = true)
    (hq : isWord q = true) : tokens o (m ++ ' ' :: (r ++ ' ' :: q)) = [m, r, q] := by
  rw [tokens_word_space o hm, tokens_two o hr hq]

theorem assemblesTo_two {o : AsmOpen} {m r : List Char} {i : Instr} (hm : isWord m = true) (hr : isWord r = true)
    (h : AcceptedForm o [m, r] i) : AssemblesTo o (m ++ ' ' :: r) i :=
  assemblesTo_of_acceptedForm (tokens_two o hm hr ▸ h)

theorem assemblesTo_three {o : AsmOpen} {m r q : List Char} {i : Instr} (hm : isWord m = true) (hr : isWord r = true)
    (hq : isWord q = true) (h : AcceptedForm o [m, r, q] i) : AssemblesTo o (m ++ ' ' :: (r ++ ' ' :: q)) i :=
  assemblesTo_of_acceptedForm (tokens_three o hm hr hq ▸ h)

/-- Settles O55: each line's words are the tokens of its form, as no reading changes upper-case letters. -/
theorem assemblerFormsGiveTheirWords : Obligations.AssemblerFormsGiveTheirWords := by
  intro o
  have mnemonic : ∀ {w : Token}, w.map Char.toUpper = w → lettersOf o.mnemonicsAnyCase w = w := lettersOf_of_upper _
  have register : ∀ {w : Token}, w.map Char.toUpper = w → lettersOf o.registersAnyCase w = w := lettersOf_of_upper _
  refine ⟨fun im => ?_, ?_⟩
  · have him := isWord_digitsOf im
    exact ⟨assemblesTo_three rfl rfl him (.addA ['A', 'D', 'D'] ['A'] im (mnemonic rfl) (register rfl)),
      assemblesTo_three rfl rfl him (.addB ['A', 'D', 'D'] ['B'] im (mnemonic rfl) (register rfl)),
      assemblesTo_three rfl rfl him (.movAIm ['M', 'O', 'V'] ['A'] im (mnemonic rfl) (register rfl)),
      assemblesTo_three rfl rfl him (.movBIm ['M', 'O', 'V'] ['B'] im (mnemonic rfl) (register rfl)),
      assemblesTo_two rfl him (.outIm ['O', 'U', 'T'] im (mnemonic rfl)),
      assemblesTo_two rfl him (.jmp ['J', 'M', 'P'] im (mnemonic rfl)),
      assemblesTo_two rfl him (.jnc ['J', 'N', 'C'] im (mnemonic rfl))⟩
  · exact ⟨assemblesTo_three rfl rfl rfl (.movAB ['M', 'O', 'V'] ['A'] ['B'] (mnemonic rfl) (register rfl)
        (register rfl)),
      assemblesTo_three rfl rfl rfl (.movBA ['M', 'O', 'V'] ['B'] ['A'] (mnemonic rfl) (register rfl) (register rfl)),
      assemblesTo_two rfl rfl (.inA ['I', 'N'] ['A'] (mnemonic rfl) (register rfl)),
      assemblesTo_two rfl rfl (.inB ['I', 'N'] ['B'] (mnemonic rfl) (register rfl)),
      assemblesTo_two rfl rfl (.outB ['O', 'U', 'T'] ['B'] (mnemonic rfl) (register rfl))⟩

/-! Lines that are refused. -/

/-- A mnemonic whose operands are in no row of the operand table, or are no operands at all, is an operation error. -/
theorem assembleTokens_of_no_row {o : AsmOpen} (k : Nat) {t : Token} {ts : List Token} {m : Mnemonic}
    (hlen : ts.length = 1 ∨ ts.length = 2) (hm : lettersOf o.mnemonicsAnyCase t = m.letters)
    (hrow : (operandTokens o ts).bind (operandTable m) = none) :
    assembleTokens o k (t :: ts) = .error (.operationError k) := by
  refine assembleTokens_of_no_lookup k hlen ?_
  rw [(mnemonicToken_eq_some o t m).mpr hm]
  exact hrow

theorem operationError_two {o : AsmOpen} {k : Nat} {t r : Token} (m : Mnemonic) (ht : isWord t = true)
    (hr : isWord r = true) (hm : lettersOf o.mnemonicsAnyCase t = m.letters)
    (hrow : (operandTokens o [r]).bind (operandTable m) = none) :
    assembleLine o k (t ++ ' ' :: r) = .error (.operationError k) := by
  rw [assembleLine, tokens_two o ht hr]
  exact assembleTokens_of_no_row k (.inl rfl) hm hrow

theorem operationError_three {o : AsmOpen} {k : Nat} {t r q : Token} (m : Mnemonic) (ht : isWord t = true)
    (hr : isWord r = true) (hq : isWord q = true) (hm : lettersOf o.mnemonicsAnyCase t = m.letters)
    (hrow : (operandTokens o [r, q]).bind (operandTable m) = none) :
    assembleLine o k (t ++ ' ' :: (r ++ ' ' :: q)) = .error (.operationError k) := by
  rw [assembleLine, tokens_three o ht hr hq]
  exact assembleTokens_of_no_row k (.inr rfl) hm hrow

/-- `C` is no operand name, whether case matters or not (R73). -/
theorem operandToken_C (o : AsmOpen) : operandToken o ['C'] = none := by
  rw [operandToken, lettersOf_of_upper _ rfl]
  rfl

/-- Settles O57: the token count decides between the two errors, and each refused line names operands that no row of its
mnemonic has. -/
theorem lineErrorsByTokenCount : Obligations.LineErrorsByTokenCount := by
  refine ⟨fun o k line => ?_, fun o k => rfl, fun o k line hline => ?_⟩
  · split
    · exact assembleTokens_two_or_three k ‹_›
    · exact assembleTokens_of_length k ‹_›
  · have mnemonic : ∀ {w : Token}, w.map Char.toUpper = w → lettersOf o.mnemonicsAnyCase w = w := lettersOf_of_upper _
    have imm : operandToken o ['0', '0', '0', '1'] = some (.imm false false false true) := rfl
    have regA : operandToken o ['A'] = some .regA := operandToken_regA (lettersOf_of_upper _ rfl)
    have regB : operandToken o ['B'] = some .regB := operandToken_regB (lettersOf_of_upper _ rfl)
    simp only [List.mem_cons, List.not_mem_nil, or_false] at hline
    obtain rfl | rfl | rfl | rfl | rfl | rfl := hline
    · exact operationError_three (t := ['M', 'O', 'V']) (r := ['A']) (q := ['C']) .mov rfl rfl rfl (mnemonic rfl)
        (by simp [operandTokens, regA, operandToken_C])
    · exact operationError_three (t := ['M', 'O', 'V']) .mov rfl rfl rfl (mnemonic rfl)
        (by rw [operandTokens_two regA regA]; rfl)
    · exact operationError_three (t := ['A', 'D', 'D']) .add rfl rfl rfl (mnemonic rfl)
        (by rw [operandTokens_two regA regB]; rfl)
    · exact operationError_two (t := ['O', 'U', 'T']) .out rfl rfl (mnemonic rfl)
        (by rw [operandTokens_one regA]; rfl)
    · exact operationError_two (t := ['I', 'N']) .inp rfl rfl (mnemonic rfl)
        (by rw [operandTokens_one imm]; rfl)
    · exact operationError_two (t := ['J', 'M', 'P']) .jmp rfl rfl (mnemonic rfl)
        (by rw [operandTokens_one regA]; rfl)

end Sys2Proof
end

section
/-! SUPPORT. A whole program: its errors and rows line by line, and the ROM image that holds it (30_encoding.md R78 to
R81). -/

namespace Sys2Proof

open Machine

/-! The lines of a program, one at a time. -/

theorem assembleLines_cons_ok {o : AsmOpen} {k : Nat} {l : List Char} {row : List Bool}
    (h : assembleLine o k l = .ok row) (ls : List (List Char)) :
    assembleLines o k (l :: ls) = (row :: (assembleLines o (k + 1) ls).1, (assembleLines o (k + 1) ls).2) := by
  rw [assembleLines, h]

theorem assembleLines_cons_error {o : AsmOpen} {k : Nat} {l : List Char} {e : AsmError}
    (h : assembleLine o k l = .error e) (ls : List (List Char)) :
    assembleLines o k (l :: ls) = ((assembleLines o (k + 1) ls).1, e :: (assembleLines o (k + 1) ls).2) := by
  rw [assembleLines, h]

/-- Some line of the program, lines numbered from `k` on, has the outcome `r`. -/
def lineGives (o : AsmOpen) (k : Nat) (ls : List (List Char)) (r : Except AsmError (List Bool)) : Prop :=
  ∃ j l, ls[j]? = some l ∧ assembleLine o (k + j) l = r

theorem lineGives_cons {o : AsmOpen} {k : Nat} {l : List Char} {ls : List (List Char)}
    {r : Except AsmError (List Bool)} :
    lineGives o k (l :: ls) r ↔ assembleLine o k l = r ∨ lineGives o (k + 1) ls r := by
  constructor
  · rintro ⟨_ | j, l', hl, hr⟩
    · cases hl
      exact .inl hr
    · exact .inr ⟨j, l', hl, by rwa [Nat.add_right_comm]⟩
  · rintro (hr | ⟨j, l', hl, hr⟩)
    · exact ⟨0, l, rfl, hr⟩
    · exact ⟨j + 1, l', hl, by rwa [← Nat.add_assoc, Nat.add_right_comm]⟩

/-- The errors of the lines are those that some line gives. -/
theorem mem_assembleLines_errors {o : AsmOpen} {k : Nat} {ls : List (List Char)} {e : AsmError} :
    e ∈ (assembleLines o k ls).2 ↔ lineGives o k ls (.error e) := by
  induction ls generalizing k with
  | nil => simp [assembleLines, lineGives]
  | cons l ls ih =>
    cases h : assembleLine o k l with
    | ok row => simp [assembleLines_cons_ok h, lineGives_cons, h, ih]
    | error e' => simp [assembleLines_cons_error h, lineGives_cons, h, ih, eq_comm]

/-- Where no line gives an error, there is a row for each line, in order. -/
theorem assembleLines_rows {o : AsmOpen} {k : Nat} {ls : List (List Char)} (h : (assembleLines o k ls).2 = []) :
    (assembleLines o k ls).1.length = ls.length ∧
      ∀ j l, ls[j]? = some l → ∃ row, assembleLine o (k + j) l = .ok row ∧ (assembleLines o k ls).1[j]? = some row := by
  induction ls generalizing k with
  | nil => simp [assembleLines]
  | cons l ls ih =>
    cases hl : assembleLine o k l with
    | error e =>
      rw [assembleLines_cons_error hl] at h
      cases h
    | ok row =>
      rw [assembleLines_cons_ok hl] at h ⊢
      obtain ⟨hlen, hrows⟩ := ih h
      refine ⟨congrArg (· + 1) hlen, fun j l' hj => ?_⟩
      cases j with
      | zero =>
        cases hj
        exact ⟨row, hl, rfl⟩
      | succ j =>
        rw [← Nat.add_assoc, Nat.add_right_comm]
        exact hrows j l' hj

/-! The errors of a program, and the program without one. -/

theorem mem_assembleErrors {o : AsmOpen} {lines : List (List Char)} {e : AsmError} :
    e ∈ assembleErrors o lines ↔
      lineGives o 0 lines (.error e) ∨ (e = .capacityError (o.capacityLine lines) ∧ 16 < lines.length) := by
  rw [assembleErrors, List.mem_append, mem_assembleLines_errors]
  split <;> simp_all [Config.romRows]

/-- No error applies exactly to the programs of at most 16 lines whose every line assembles. -/
theorem assembleErrors_eq_nil {o : AsmOpen} {lines : List (List Char)} :
    assembleErrors o lines = [] ↔
      lines.length ≤ 16 ∧ ∀ (k : Nat) (l : List Char), lines[k]? = some l → ∃ row, assembleLine o k l = .ok row := by
  rw [List.eq_nil_iff_forall_not_mem]
  constructor
  · intro h
    refine ⟨Nat.le_of_not_lt fun hlen => h _ (mem_assembleErrors.mpr (.inr ⟨rfl, hlen⟩)), fun k l hl => ?_⟩
    cases hr : assembleLine o k l with
    | ok row => exact ⟨row, rfl⟩
    | error e => exact absurd (mem_assembleErrors.mpr (.inl ⟨k, l, hl, by rwa [Nat.zero_add]⟩)) (h e)
  · rintro ⟨hlen, hlines⟩ e he
    obtain ⟨j, l, hl, hr⟩ | ⟨-, hcap⟩ := mem_assembleErrors.mp he
    · obtain ⟨row, hrow⟩ := hlines j l hl
      rw [Nat.zero_add, hrow] at hr
      cases hr
    · omega

theorem assembleProgram_eq_ok {o : AsmOpen} {lines : List (List Char)} {image : List (List Bool)} :
    assembleProgram o lines = .ok image ↔
      assembleErrors o lines = [] ∧
        (assembleLines o 0 lines).1 ++ List.replicate (Config.romRows - lines.length) zeroRow = image := by
  unfold assembleProgram
  cases assembleErrors o lines with
  | nil => simp
  | cons e es => simp

/-- An error that is reported is one that applies. -/
theorem mem_assembleErrors_of_assembleProgram {o : AsmOpen} {lines : List (List Char)} {e : AsmError}
    (h : assembleProgram o lines = .error e) : e ∈ assembleErrors o lines := by
  unfold assembleProgram at h
  cases hes : assembleErrors o lines with
  | nil =>
    rw [hes] at h
    cases h
  | cons e' es =>
    rw [hes] at h
    cases h
    have hlt : o.report (e' :: es) % (es.length + 1) < (e' :: es).length := Nat.mod_lt _ (Nat.succ_pos _)
    rw [← List.getElem_eq_getD (h := hlt) e']
    exact List.getElem_mem hlt

/-- Settles O58: a program assembles when no error applies, and each error is that of a line or of the count. -/
theorem programAssemblesWholeOrNotAtAll : Obligations.ProgramAssemblesWholeOrNotAtAll := by
  intro o lines
  constructor
  · rw [← assembleErrors_eq_nil]
    simp [assembleProgram_eq_ok]
  · intro e h
    obtain ⟨j, l, hl, hr⟩ | hcap := mem_assembleErrors.mp (mem_assembleErrors_of_assembleProgram h)
    · exact .inr ⟨j, l, hl, by rwa [Nat.zero_add] at hr⟩
    · exact .inl hcap

/-! The image, and its rows read from the ROM. -/

/-- Row `j` of the words from row `k` on reads as word `j`, whether it is listed or, being the unused-row word, is not. -/
theorem read_ofRowsFrom {ws : List Word} {k j : Nat} {w : Word} (hlen : k + ws.length ≤ Config.romRows)
    (h : ws[j]? = some w) : (Memory.ofRowsFrom k ws).read (k + j) = w := by
  induction ws generalizing k j with
  | nil => cases h
  | cons v ws ih =>
    have hrest : k + 1 + ws.length ≤ Config.romRows := by
      rwa [List.length_cons, ← Nat.add_assoc, Nat.add_right_comm] at hlen
    rw [Memory.ofRowsFrom]
    cases j with
    | zero =>
      cases h
      split
      case isTrue hunused =>
        exact (read_below _ (wfFrom_ofRowsFrom ws (k + 1) hrest) (Nat.lt_succ_self k)).trans hunused.symm
      case isFalse => exact if_pos rfl
    | succ j =>
      have hread : (Memory.ofRowsFrom (k + 1) ws).read (k + (j + 1)) = w := by
        rw [← Nat.add_assoc, Nat.add_right_comm]
        exact ih hrest h
      split
      · exact hread
      · rw [Memory.read, if_neg (by omega), hread]

theorem load_read {image : List (List Bool)} (s : State) (hlen : image.length = 16) {k : Nat} {row : List Bool}
    (h : image[k]? = some row) : (s.load image).rom.read k = wordOfRow row := by
  have hws : (image.map wordOfRow).length = Config.romRows := by rw [List.length_map, hlen, Config.romRows]
  have hread := read_ofRowsFrom (ws := image.map wordOfRow) (k := 0) (j := k) (w := wordOfRow row) (by omega)
    (by rw [List.getElem?_map, h, Option.map_some])
  rwa [Nat.zero_add, ← List.take_of_length_le (Nat.le_of_eq hws)] at hread

/-- Settles O59: the image is the lines' rows and then the padding, and the ROM it makes reads back its rows. -/
theorem romImageHoldsTheProgram : Obligations.RomImageHoldsTheProgram := by
  intro o lines image s h
  obtain ⟨herrors, rfl⟩ := assembleProgram_eq_ok.mp h
  obtain ⟨hle, -⟩ := assembleErrors_eq_nil.mp herrors
  obtain ⟨hrows, hline⟩ := assembleLines_rows (List.append_eq_nil_iff.mp herrors).1
  have hlen : ((assembleLines o 0 lines).1 ++ List.replicate (Config.romRows - lines.length) zeroRow).length = 16 := by
    rw [List.length_append, List.length_replicate, hrows, Config.romRows]
    omega
  refine ⟨hlen, fun k l hl => ?row, fun k hlo hhi => ?padding, fun k row => load_read s hlen, ofRows_wf _⟩
  case row =>
    obtain ⟨row, hrow, hget⟩ := hline k l hl
    have hk : k < (assembleLines o 0 lines).1.length := (List.getElem?_eq_some_iff.mp hget).1
    rw [Nat.zero_add] at hrow
    exact ⟨row, hrow, by rw [List.getElem?_append_left hk, hget]⟩
  case padding =>
    rw [List.getElem?_append_right (by omega), List.getElem?_replicate, if_pos (by simp only [Config.romRows]; omega)]
    rfl

end Sys2Proof
end
